-- ==== Sys2Proof/Word.lean ====
section
/-! DEFINITION. The words of the sbyl CORE: every register value, program word, operand and address is an unsigned
64-bit integer (spec 00_scope.md R7, R8); the stack memory alone is made of bytes (10_state.md R35). -/

namespace Sys2Proof

/-- A u64: a register value, a program word, an operand or a word address (R8). -/
abbrev Word := BitVec 64

/-- One byte of the stack memory (R35). -/
abbrev Byte := BitVec 8

end Sys2Proof
end

