-- ==== Sys2Proof/Config.lean ====
section
/-! DEFINITION. The implementation parameters of the sbyl CORE (spec 00_scope.md R7). `XLEN` is the width of `Word`;
the program and its length are parameters of a run and stand in the state (10_state.md R36). -/

namespace Sys2Proof

/-- `NREG`: the register file holds eight registers, indices 0 to 7 (R7, R20). -/
def Config.numRegisters : Nat := 8

/-- `NOPC`: nine opcodes, values 0 to 8 (R7, R2). -/
def Config.numOpcodes : Nat := 9

/-- `STACK_BYTES`: the stack memory has byte addresses 0 to 4095 (R7, R35). -/
def Config.stackBytes : Nat := 4096

/-- The largest program length L: `0 ≤ L ≤ 2^64 − 1` (R7, decision D10). -/
def Config.maxProgramLength : Nat := 2 ^ 64 - 1

/-- `debug_line_format`: the text of one DebugRegs line, from the register's label and the decimal digits of its
value. OPEN in the spec (R7, R42, decision D13), so it has no body: nothing can be proved of the characters of a
line (log entry 8, DESIGN CHOICE, safe). -/
opaque Config.debugLineFormat : (label decimal : String) → String

end Sys2Proof
end

