-- ==== Sys2Proof/Syntax.lean ====
section
/-! DEFINITION. The syntax of the sbyl CORE: one constructor per row of spec/opcode_table.json. Every operand is the
whole operand word (30_encoding.md R72, R76 to R78), in the order the spec writes the operands (R73). A register
operand is an index word of any value: the decoder checks none (R77, R83). -/

namespace Sys2Proof

/-- A decoded instruction: the opcode plus its operand words, ready for execution (00_scope.md R12, 10_state.md R39). -/
inductive Instr where
  /-- Opcode 0, `Halt` (R151). -/
  | halt
  /-- Opcode 1, `SetRegImm dst, imm` (R110). -/
  | setRegImm (dst imm : Word)
  /-- Opcode 2, `SetRegReg dst, src` (R111). -/
  | setRegReg (dst src : Word)
  /-- Opcode 3, `AddRegReg a, b` (R121). -/
  | addRegReg (a b : Word)
  /-- Opcode 4, `AddRegImm a, imm` (R122). -/
  | addRegImm (a imm : Word)
  /-- Opcode 5, `CmpRegImm reg, imm` (R131). -/
  | cmpRegImm (reg imm : Word)
  /-- Opcode 6, `JumpEq addr` (R133). -/
  | jumpEq (addr : Word)
  /-- Opcode 7, `JumpNotEq addr` (R132). -/
  | jumpNotEq (addr : Word)
  /-- Opcode 8, `DebugRegs` (R150). -/
  | debugRegs
deriving DecidableEq, Repr

end Sys2Proof
end

