-- ==== Sys2Proof/Decode.lean ====
section
/-! DEFINITION. The instruction_decoder and the encoder of the sbyl CORE (spec 30_encoding.md R70 to R83, 40_cycle.md
R92, R93). One decoder serves every reader of words: `decodeFrom` takes the read of the word at an offset from the
instruction's address, so that `decode` (a list of words) and the machine's fetch (20_memory.md R51) decode alike. -/

namespace Sys2Proof

/-- The nine opcodes (00_scope.md R2). -/
inductive Opcode where
  | halt | setRegImm | setRegReg | addRegReg | addRegImm | cmpRegImm | jumpEq | jumpNotEq | debugRegs
deriving DecidableEq, Repr

/-- The opcode word of each opcode (R79). -/
def Opcode.toWord : Opcode → Word
  | .halt => 0
  | .setRegImm => 1
  | .setRegReg => 2
  | .addRegReg => 3
  | .addRegImm => 4
  | .cmpRegImm => 5
  | .jumpEq => 6
  | .jumpNotEq => 7
  | .debugRegs => 8

/-- `DecodeOpcode(w)`: the opcode whose word is `w`, all 64 bits compared; none for every other word (R75, R92). -/
def Opcode.ofWord (w : Word) : Option Opcode :=
  match w.toNat with
  | 0 => some .halt
  | 1 => some .setRegImm
  | 2 => some .setRegReg
  | 3 => some .addRegReg
  | 4 => some .addRegImm
  | 5 => some .cmpRegImm
  | 6 => some .jumpEq
  | 7 => some .jumpNotEq
  | 8 => some .debugRegs
  | _ => none

/-- `OperandCount(op)`: the number n of operand words of each opcode (R74). -/
def Opcode.operandCount : Opcode → Nat
  | .halt => 0
  | .setRegImm => 2
  | .setRegReg => 2
  | .addRegReg => 2
  | .addRegImm => 2
  | .cmpRegImm => 2
  | .jumpEq => 1
  | .jumpNotEq => 1
  | .debugRegs => 0

/-- The opcode of a decoded instruction (R39). -/
def Instr.opcode : Instr → Opcode
  | .halt => .halt
  | .setRegImm _ _ => .setRegImm
  | .setRegReg _ _ => .setRegReg
  | .addRegReg _ _ => .addRegReg
  | .addRegImm _ _ => .addRegImm
  | .cmpRegImm _ _ => .cmpRegImm
  | .jumpEq _ => .jumpEq
  | .jumpNotEq _ => .jumpNotEq
  | .debugRegs => .debugRegs

/-- The length of an instruction in words, 1 + n (R80). -/
def Instr.size (i : Instr) : Nat := 1 + i.opcode.operandCount

/-- Read one operand word, the word at offset 1 (format FA, R71). -/
def readOne {ε : Type} (read : Nat → Except ε Word) (make : Word → Instr) : Except ε Instr :=
  match read 1 with
  | .error e => .error e
  | .ok o1 => .ok (make o1)

/-- Read two operand words, at offsets 1 and then 2 (formats FRI and FRR, R71, R93). -/
def readTwo {ε : Type} (read : Nat → Except ε Word) (make : Word → Word → Instr) : Except ε Instr :=
  match read 1 with
  | .error e => .error e
  | .ok o1 =>
    match read 2 with
    | .error e => .error e
    | .ok o2 => .ok (make o1 o2)

/-- The operand fetch of a resolved opcode (R93): operands in word order (R73). -/
def decodeOperands {ε : Type} (read : Nat → Except ε Word) : Opcode → Except ε Instr
  | .halt => .ok .halt
  | .setRegImm => readTwo read Instr.setRegImm
  | .setRegReg => readTwo read Instr.setRegReg
  | .addRegReg => readTwo read Instr.addRegReg
  | .addRegImm => readTwo read Instr.addRegImm
  | .cmpRegImm => readTwo read Instr.cmpRegImm
  | .jumpEq => readOne read Instr.jumpEq
  | .jumpNotEq => readOne read Instr.jumpNotEq
  | .debugRegs => .ok .debugRegs

/-- One decode: `read k` reads the word k words after the instruction's address, `unknown w` is the error for an
unknown opcode word. The opcode is resolved before any operand is read (R92, R166). -/
def decodeFrom {ε : Type} (read : Nat → Except ε Word) (unknown : Word → ε) : Except ε Instr :=
  match read 0 with
  | .error e => .error e
  | .ok w =>
    match Opcode.ofWord w with
    | none => .error (unknown w)
    | some op => decodeOperands read op

/-- Why a list of words is no instruction. -/
inductive DecodeError where
  /-- The first word is not one of 0 to 8; it carries that word (R81, R92). -/
  | unknownOpcode (w : Word)
  /-- The list ends before the word at this offset (R91, R93). -/
  | missingWord (offset : Nat)
deriving DecidableEq, Repr

/-- The word at an offset of a list of words. -/
def readWord (ws : List Word) (k : Nat) : Except DecodeError Word :=
  match ws[k]? with
  | some w => .ok w
  | none => .error (.missingWord k)

/-- The decoder on a list of words: the instruction whose opcode word is the first; the words after its
`Instr.size` words are not looked at (R70, R80). -/
def decode (ws : List Word) : Except DecodeError Instr := decodeFrom (readWord ws) .unknownOpcode

/-- The words of an instruction: the opcode word, then the operand words in written order (R70, R71, R73, R79). -/
def encode : Instr → List Word
  | .halt => [0]
  | .setRegImm dst imm => [1, dst, imm]
  | .setRegReg dst src => [2, dst, src]
  | .addRegReg a b => [3, a, b]
  | .addRegImm a imm => [4, a, imm]
  | .cmpRegImm reg imm => [5, reg, imm]
  | .jumpEq addr => [6, addr]
  | .jumpNotEq addr => [7, addr]
  | .debugRegs => [8]

/-- The three words (the longest instruction, R80) whose bits are the low `nbits` bits of `w`, numbered as
spec/opcode_table.json numbers them: the first word holds bits 63 to 0. Words of the program have no byte order (R55). -/
def tableWords (nbits w : Nat) : List Word :=
  let v := w % 2 ^ nbits
  [BitVec.ofNat 64 v, BitVec.ofNat 64 (v / 2 ^ 64), BitVec.ofNat 64 (v / 2 ^ 128)]

/-- The instruction the decoder reads from an instruction whose bits are `w` (see `tableWords`). -/
def decodeTableWord (nbits w : Nat) : Option Instr :=
  match decode (tableWords nbits w) with
  | .ok i => some i
  | .error _ => none

end Sys2Proof
end

