-- ==== Sys2Proof/Machine/State.lean ====
section
/-! DEFINITION. The state of the sbyl CORE as plain data (spec 10_state.md), its faults (60_exceptions.md R160) and
its reset (R44, 70_reset_and_hazards.md R190). -/

namespace Sys2Proof.Machine

/-- The faults of the machine (60_exceptions.md R160). A fault is part of the architectural state: the cycle that
raises it answers a NEXT state whose run status is `RunStatus.faulted` (R99, R169), because the registers it leaves
stay readable by the host (R43). So no step answers `Host.Outcome.fault` (log entry 1, DEDUCED, safe). -/
inductive Fault where
  /-- Raised by decode when the opcode word `w` is not one of 0 to 8 (R161). Safe: the run ends. -/
  | unknownOpcode (w : Word)
  /-- Raised by the opcode fetch or an operand fetch at a word address `a ≥ L` (R162, decision D4). Safe: the run ends. -/
  | programAddressOutOfRange (a : Word)
  /-- Raised in execute when the register operand word `i` is 8 or more (R163, decision D5). Safe: the run ends. -/
  | registerIndexOutOfRange (i : Word)
  /-- Raised in execute by every JumpEq, with the opcode 6 (R164, decision D7). Safe: the run ends. -/
  | unsupportedOpcode (opcode : Word)
deriving DecidableEq, Repr

/-- Reasons for which the model has no meaning for an instruction. -/
inductive Refusal where
  /-- An instruction without a meaning, by its mnemonic. Raised by nothing: every instruction has its meaning. Safe. -/
  | notModelled (mnemonic : String)
deriving DecidableEq, Repr

/-- The names of the eight registers, in index order (R21). -/
inductive Reg where
  | pc | sp | ac | fl | r1 | r2 | r3 | r4
deriving DecidableEq, Repr

/-- The register file: eight 64-bit registers, none hardwired, no banks (R20, R22). -/
structure RegFile where
  /-- Index 0, the program counter: the word address of the next instruction to fetch (R24). -/
  pc : Word
  /-- Index 1, the stack pointer, used by no instruction implicitly (R28). -/
  sp : Word
  /-- Index 2, the accumulator and condition code (R29, R30). -/
  ac : Word
  /-- Index 3, reserved flags with no defined field (R32). -/
  fl : Word
  /-- Index 4 (R21). -/
  r1 : Word
  /-- Index 5 (R21). -/
  r2 : Word
  /-- Index 6 (R21). -/
  r3 : Word
  /-- Index 7 (R21). -/
  r4 : Word
deriving DecidableEq, Repr

/-- The run status (R37). -/
inductive RunStatus where
  /-- No run has been started since construction: "not running" (R44, R190; log entry 2, DEDUCED). -/
  | notRunning
  /-- A run is in progress: cycles are taken (R37, R90). -/
  | running
  /-- The run ended by Halt, outcome Ok (R97, R171). -/
  | halted
  /-- The run ended by the fault, outcome Err (R99, R171). -/
  | faulted (f : Fault)
deriving DecidableEq, Repr

/-- The bit an executed instruction yields: continue or stop; not held across cycles (R38). -/
inductive Signal where
  | goOn | stop
deriving DecidableEq, Repr

/-- One event `DebugDump(v0, ..., v7)` of the debug output interface (R42). -/
structure DebugDump where
  v0 : Word
  v1 : Word
  v2 : Word
  v3 : Word
  v4 : Word
  v5 : Word
  v6 : Word
  v7 : Word
deriving DecidableEq, Repr

/-- The outcome of a run that has ended (R171). -/
inductive RunOutcome where
  | ok
  | err (f : Fault)
deriving DecidableEq, Repr

/-- The stack memory as (byte address, byte) pairs in one canonical form (`Memory.wf`): addresses strictly rising and
below 4096, and no byte listed that an unlisted address reads as (R35, R54; log entry 9). -/
abbrev Memory := List Host.Cell

/-- The whole machine. -/
structure State where
  /-- The register file (R20). -/
  regs : RegFile
  /-- The stack memory, which no instruction reaches (R35, R53). -/
  stack : Memory
  /-- The run status (R37). -/
  status : RunStatus
  /-- The program lent for the run: word address k holds the k-th word, L is the length (R36, R40; log entry 4,
  DESIGN CHOICE: the spec makes P a parameter of the run, and State holds it so that a step can read it). -/
  program : List Word
  /-- The model's own record of the debug output stream: every event emitted since construction, oldest first
  (R42; log entry 7, DESIGN CHOICE). -/
  debug : List DebugDump
deriving DecidableEq, Repr

/-- Every register at 0 (R44). -/
def RegFile.zero : RegFile :=
  { pc := 0, sp := 0, ac := 0, fl := 0, r1 := 0, r2 := 0, r3 := 0, r4 := 0 }

/-- The machine right after reset, which is its construction: registers and stack bytes 0, no run in progress
(R44, R190). No program has been lent and no event emitted. -/
def State.reset : State :=
  { regs := RegFile.zero, stack := [], status := .notRunning, program := [], debug := [] }

end Sys2Proof.Machine
end

