-- ==== Sys2Proof/Machine/Ops.lean ====
section
/-! DEFINITION. The named operations of the sbyl CORE: register access (10_state.md R20 to R23), the program read
(20_memory.md R51), the one-byte stack accesses (R54), the ALU's addition (42_alu.md R120), raising a fault
(40_cycle.md R99, 60_exceptions.md R169), the loop's reading of the continue/stop bit (R97) and the debug output (R42). -/

namespace Sys2Proof.Machine

/-- What a cycle answers. -/
abbrev StepResult := Host.Outcome State Fault Refusal

/-- Read a register of the file: `x[i]` (00_scope.md R10). -/
def RegFile.get (x : RegFile) : Reg → Word
  | .pc => x.pc
  | .sp => x.sp
  | .ac => x.ac
  | .fl => x.fl
  | .r1 => x.r1
  | .r2 => x.r2
  | .r3 => x.r3
  | .r4 => x.r4

/-- Write a register of the file: `x[i] <- v` (R10). -/
def RegFile.set (x : RegFile) (r : Reg) (v : Word) : RegFile :=
  match r with
  | .pc => { x with pc := v }
  | .sp => { x with sp := v }
  | .ac => { x with ac := v }
  | .fl => { x with fl := v }
  | .r1 => { x with r1 := v }
  | .r2 => { x with r2 := v }
  | .r3 => { x with r3 := v }
  | .r4 => { x with r4 := v }

/-- The value of a register. No register is hardwired (R22). -/
def State.reg (s : State) (r : Reg) : Word := s.regs.get r

/-- The state with one register written (R22, R34). -/
def State.setReg (s : State) (r : Reg) (v : Word) : State := { s with regs := s.regs.set r v }

/-- The program length L (00_scope.md R7). -/
def State.programLength (s : State) : Nat := s.program.length

/-- `Fetch(a)`: the program word at word address `a`, or ProgramAddressOutOfRange when `a ≥ L` (20_memory.md R51, 10_state.md R40). -/
def State.fetch (s : State) (a : Word) : Except Fault Word :=
  match s.program[a.toNat]? with
  | some w => .ok w
  | none => .error (.programAddressOutOfRange a)

/-- Raising a fault, the one shared operation of fault entry: nothing is saved, control is transferred nowhere, and the
run status becomes `Faulted(f)`; every register keeps its value (40_cycle.md R99, 60_exceptions.md R169). There is no
return from it (R170). -/
def State.withFault (s : State) (f : Fault) : State := { s with status := .faulted f }

/-- `raise F(info)`: end the cycle with the fault (00_scope.md R10). -/
def State.raise (s : State) (f : Fault) : StepResult := .next (s.withFault f)

/-- The loop reads the continue/stop bit of an executed instruction: stop sets the status to Halted, continue leaves
it (40_cycle.md R97). -/
def State.afterSignal (s : State) : Signal → State
  | .goOn => s
  | .stop => { s with status := .halted }

/-- End a cycle whose instruction yields the bit `b` (R97). -/
def State.finish (s : State) (b : Signal) : StepResult := .next (s.afterSignal b)

/-- The simple_alu: addition of two u64 modulo `2^64`; no carry or overflow is kept (42_alu.md R120). -/
def add64 (u v : Word) : Word := u + v

/-- The event of the eight register values in index order (10_state.md R42). -/
def State.dump (s : State) : DebugDump :=
  { v0 := s.reg .pc, v1 := s.reg .sp, v2 := s.reg .ac, v3 := s.reg .fl,
    v4 := s.reg .r1, v5 := s.reg .r2, v6 := s.reg .r3, v7 := s.reg .r4 }

/-- `emit DebugDump(...)`: one more event on the debug output interface, after those before it (R42). -/
def State.emit (s : State) (d : DebugDump) : State := { s with debug := s.debug ++ [d] }

/-- What an unlisted byte of the stack memory reads as: the stack is zero at construction (R35, R44). -/
def Memory.unlisted : Byte := 0

/-- The byte of the stack memory at an address. -/
def Memory.read : Memory → Nat → Byte
  | [], _ => Memory.unlisted
  | (b, v) :: m, a => if b = a then v else Memory.read m a

/-- Insert a byte at its place in a list of rising addresses, or take the entry out when the byte is the unlisted one. -/
def Memory.write : Memory → Nat → Byte → Memory
  | [], a, v => if v = Memory.unlisted then [] else [(a, v)]
  | (b, u) :: m, a, v =>
    if a < b then (if v = Memory.unlisted then (b, u) :: m else (a, v) :: (b, u) :: m)
    else if a = b then (if v = Memory.unlisted then m else (a, v) :: m)
    else (b, u) :: Memory.write m a v

/-- Every listed address is at least `lo` and below the size of the stack space, the addresses rise strictly, and no
listed byte is the unlisted one. -/
def Memory.wfFrom : Nat → Memory → Bool
  | _, [] => true
  | lo, (b, v) :: m =>
    decide (lo ≤ b) && decide (b < Config.stackBytes) && decide (v ≠ Memory.unlisted) && Memory.wfFrom (b + 1) m

/-- The canonical form of the stack memory (log entry 9). -/
def Memory.wf (m : Memory) : Bool := Memory.wfFrom 0 m

/-- `MemRead(addr, 1)`: the stack byte at `addr` for `0 ≤ addr ≤ 4095`; outside, the stack space holds no byte
(20_memory.md R53, R54). No instruction invokes it. -/
def State.memRead (s : State) (addr : Nat) : Option Byte :=
  if addr < Config.stackBytes then some (s.stack.read addr) else none

/-- `MemWrite(addr, 1, v)`: write one stack byte for `0 ≤ addr ≤ 4095` (R54). No instruction invokes it. -/
def State.memWrite (s : State) (addr : Nat) (v : Byte) : Option State :=
  if addr < Config.stackBytes then some { s with stack := s.stack.write addr v } else none

end Sys2Proof.Machine
end

