-- ==== Sys2Proof/Machine/Operands.lean ====
section
/-! DEFINITION. The operand forms of the sbyl CORE (spec 30_encoding.md R76 to R78): an immediate and an address are
the operand word itself and need no form of their own; a register operand is an index word checked at execute
(40_cycle.md R96). -/

namespace Sys2Proof.Machine

/-- The index of a register (10_state.md R21). -/
def Reg.index : Reg → Word
  | .pc => 0
  | .sp => 1
  | .ac => 2
  | .fl => 3
  | .r1 => 4
  | .r2 => 5
  | .r3 => 6
  | .r4 => 7

/-- The register an index word names; none from 8 up, and no truncation (R77). -/
def Reg.ofIndex (i : Word) : Option Reg :=
  match i.toNat with
  | 0 => some .pc
  | 1 => some .sp
  | 2 => some .ac
  | 3 => some .fl
  | 4 => some .r1
  | 5 => some .r2
  | 6 => some .r3
  | 7 => some .r4
  | _ => none

/-- The label of a register in the DebugRegs dump, which is also its name (R21). -/
def Reg.label : Reg → String
  | .pc => "pc"
  | .sp => "sp"
  | .ac => "ac"
  | .fl => "fl"
  | .r1 => "r1"
  | .r2 => "r2"
  | .r3 => "r3"
  | .r4 => "r4"

/-- `CheckReg(i)` and then the rest of the instruction's rule with the register `i` names: an index of 8 or more
raises RegisterIndexOutOfRange(i) before any register is read or written (R96, R163). -/
def checkReg (s : State) (i : Word) (rest : Reg → StepResult) : StepResult :=
  match Reg.ofIndex i with
  | none => s.raise (.registerIndexOutOfRange i)
  | some r => rest r

/-- Two register operands, checked in operand-word order, both before any register access (R96, decision D15). -/
def checkRegs (s : State) (i j : Word) (rest : Reg → Reg → StepResult) : StepResult :=
  checkReg s i fun r => checkReg s j fun q => rest r q

end Sys2Proof.Machine
end

