-- ==== Sys2Proof/Machine/Arith.lean ====
section
/-! DEFINITION. The additions of the sbyl CORE (spec 42_alu.md): the destination is always ac, whatever registers are
named. Each meaning runs on the state whose pc has been advanced (40_cycle.md R94). -/

namespace Sys2Proof.Machine

/-- AddRegReg: `x[2] <- x[a] +64 x[b]` (R121). -/
def execAddRegReg (a b : Word) (s : State) : StepResult :=
  checkRegs s a b fun ra rb => (s.setReg .ac (add64 (s.reg ra) (s.reg rb))).finish .goOn

/-- AddRegImm: `x[2] <- x[a] +64 imm` (R122, decision D6: it wraps). -/
def execAddRegImm (a imm : Word) (s : State) : StepResult :=
  checkReg s a fun ra => (s.setReg .ac (add64 (s.reg ra) imm)).finish .goOn

end Sys2Proof.Machine
end

