-- ==== Sys2Proof/Machine/Flags.lean ====
section
/-! DEFINITION. The condition_flag_unit of the sbyl CORE: the three-way unsigned compare (spec 43_compare_branch.md
R130) and the branch test on the whole of ac (R132). There is no flag bit: the condition code is ac (10_state.md R30),
and no bit of fl is defined (R32). -/

namespace Sys2Proof.Machine

/-- `Compare3(u, v)`: 0 for greater, 1 for equal, 2 for less, on unsigned integers (R130). -/
def compare3 (u v : Word) : Word :=
  if v.toNat < u.toNat then 0 else if u.toNat = v.toNat then 1 else 2

/-- The branch condition of JumpNotEq: the whole 64-bit ac is not 1 (R31, R132). -/
def branchTaken (s : State) : Bool := s.reg .ac != 1

end Sys2Proof.Machine
end

