-- ==== Sys2Proof/Machine/CompareBranch.lean ====
section
/-! DEFINITION. Compare and branch of the sbyl CORE (spec 43_compare_branch.md). Each meaning runs on the state whose
pc has been advanced (40_cycle.md R94). -/

namespace Sys2Proof.Machine

/-- CmpRegImm: `x[2] <- Compare3(x[reg], imm)` (R131). -/
def execCmpRegImm (reg imm : Word) (s : State) : StepResult :=
  checkReg s reg fun r => (s.setReg .ac (compare3 (s.reg r) imm)).finish .goOn

/-- JumpEq: decoded, then always UnsupportedOpcode(6); no branch meaning (R133, R164, decision D7). -/
def execJumpEq (_addr : Word) (s : State) : StepResult :=
  s.raise (.unsupportedOpcode Opcode.jumpEq.toWord)

/-- JumpNotEq: `if x[2] != 1 then x[0] <- addr`; the target is not checked here (R132, decision D16). -/
def execJumpNotEq (addr : Word) (s : State) : StepResult :=
  (if branchTaken s then s.setReg .pc addr else s).finish .goOn

end Sys2Proof.Machine
end

