-- ==== Sys2Proof/Machine/Move.lean ====
section
/-! DEFINITION. The moves of the sbyl CORE (spec 41_move.md). Each meaning runs on the state whose pc has been
advanced past the instruction (00_scope.md R11, 40_cycle.md R94). -/

namespace Sys2Proof.Machine

/-- SetRegImm: `x[dst] <- imm` (R110); with dst = 0 an unconditional jump. -/
def execSetRegImm (dst imm : Word) (s : State) : StepResult :=
  checkReg s dst fun d => (s.setReg d imm).finish .goOn

/-- SetRegReg: `x[dst] <- x[src]` (R111); src = 0 reads the advanced pc. -/
def execSetRegReg (dst src : Word) (s : State) : StepResult :=
  checkRegs s dst src fun d r => (s.setReg d (s.reg r)).finish .goOn

end Sys2Proof.Machine
end

