-- ==== Sys2Proof/Machine/System.lean ====
section
/-! DEFINITION. Debug dump and halt of the sbyl CORE (spec 44_system.md). Each meaning runs on the state whose pc has
been advanced (40_cycle.md R94). -/

namespace Sys2Proof.Machine

/-- DebugRegs: emit the eight register values, pc being the advanced pc; no register changes (R150). -/
def execDebugRegs (s : State) : StepResult := (s.emit s.dump).finish .goOn

/-- Halt: yield stop; no register changes (R151). -/
def execHalt (s : State) : StepResult := s.finish .stop

end Sys2Proof.Machine
end

