-- ==== Sys2Proof/Machine/Dispatch.lean ====
section
/-! DEFINITION. `Execute(op, o[1..n])` (spec 40_cycle.md R96): one arm per instruction, on the state whose pc has been
advanced (R94, log entry 6). -/

namespace Sys2Proof.Machine

def exec (i : Instr) (s : State) : Host.Outcome State Fault Refusal :=
  match i with
  | .halt => Sys2Proof.Machine.execHalt s
  | .setRegImm dst imm => Sys2Proof.Machine.execSetRegImm dst imm s
  | .setRegReg dst src => Sys2Proof.Machine.execSetRegReg dst src s
  | .addRegReg a b => Sys2Proof.Machine.execAddRegReg a b s
  | .addRegImm a imm => Sys2Proof.Machine.execAddRegImm a imm s
  | .cmpRegImm reg imm => Sys2Proof.Machine.execCmpRegImm reg imm s
  | .jumpEq addr => Sys2Proof.Machine.execJumpEq addr s
  | .jumpNotEq addr => Sys2Proof.Machine.execJumpNotEq addr s
  | .debugRegs => Sys2Proof.Machine.execDebugRegs s

end Sys2Proof.Machine
end

