-- ==== Sys2Proof/Machine/Fetch.lean ====
section
/-! DEFINITION. The fetch and decode half of a cycle (spec 40_cycle.md R90 to R94) and the placing of an instruction
where the next cycle fetches it. -/

namespace Sys2Proof.Machine

/-- Fetch and decode at pc: the opcode word at pc, then the operand words at pc + 1 and pc + 2 as the opcode needs
them; the first read past the program raises ProgramAddressOutOfRange, an unknown opcode word UnknownOpcode (R91 to R93). -/
def State.fetchDecode (s : State) : Except Fault Instr :=
  decodeFrom (fun k => s.fetch (s.reg .pc + BitVec.ofNat 64 k)) .unknownOpcode

/-- The PC advance `x[0] <- a + 1 + n`, before the instruction executes (R94, R100). -/
def State.advancePc (s : State) (i : Instr) : State :=
  s.setReg .pc (s.reg .pc + BitVec.ofNat 64 i.size)

/-- A program with the words `ws` standing at word addresses `a`, `a + 1`, ...; a shorter program is extended with
zero words. Used only to place an instruction for the host (`State.withFetchWord`, log entry 5). -/
def placeWords : List Word → Nat → List Word → List Word
  | p, 0, ws => ws ++ p.drop ws.length
  | [], a + 1, ws => 0 :: placeWords [] a ws
  | w :: p, a + 1, ws => w :: placeWords p a ws

end Sys2Proof.Machine
end

