-- ==== Sys2Proof/Machine/Step.lean ====
section
/-! DEFINITION. One cycle of the fetch_decode_execute_loop (spec 40_cycle.md R90). -/

namespace Sys2Proof.Machine

/-- One transition. While the status is Running: fetch and decode, then the PC advance, then execute; a fault of fetch
or decode is raised with every register unchanged (R90 to R99). In every other status no cycle is taken and nothing
changes until the host acts (R37, R99, R179; log entry 3, DEDUCED, safe). -/
def step (s : State) : Host.Outcome State Fault Refusal :=
  match s.status with
  | .running =>
    match s.fetchDecode with
    | .error f => s.raise f
    | .ok i => exec i (s.advancePc i)
  | .notRunning => .next s
  | .halted => .next s
  | .faulted _ => .next s

/-- `s` with the instruction whose bits are `w` placed at pc in the program and a run in progress, so that the next
step fetches and runs it: it stands for the host's lending of a program and start of a run (R41, R192; log entry 5). -/
def State.withFetchWord (s : State) (nbits w : Nat) : State :=
  { s with
    program := placeWords s.program (s.reg .pc).toNat (tableWords nbits w)
    status := .running }

end Sys2Proof.Machine
end

