-- ==== Sys2Proof/Machine/HostPort.lean ====
section
/-! DEFINITION. The host control interface, the register readout and the debug output interface of the sbyl CORE
(spec 10_state.md R41 to R43, 60_exceptions.md R171, R173). Constructing the core is `State.reset` (R190). -/

namespace Sys2Proof.Machine

/-- The host starts a run with the program `p`: the status becomes Running and the registers and the stack stay as the
core holds them (70_reset_and_hazards.md R192). None where the host has no such move: a run is in progress (R173), or
the program is longer than `2^64 − 1` words (00_scope.md R7). Log entry 5. -/
def State.startRun (s : State) (p : List Word) : Option State :=
  if s.status = .running ∨ Config.maxProgramLength < p.length then none
  else some { s with program := p, status := .running }

/-- The outcome of the run: Ok after Halt, Err(f) after a fault, none while no run has ended (R41, R171). -/
def State.outcome (s : State) : Option RunOutcome :=
  match s.status with
  | .notRunning => none
  | .running => none
  | .halted => some .ok
  | .faulted f => some (.err f)

/-- The register readout: all eight registers once the run has ended, after Ok and Err alike; the host must wait for
the end of the run (R43, R173; log entry 10, DEDUCED). -/
def State.readout (s : State) : Option RegFile := s.outcome.map fun _ => s.regs

/-- The eight registers in index order, the order of the DebugRegs dump (R21, R42). -/
def Reg.all : List Reg := [.pc, .sp, .ac, .fl, .r1, .r2, .r3, .r4]

/-- The values of an event in index order (R42). -/
def DebugDump.values (d : DebugDump) : List Word := [d.v0, d.v1, d.v2, d.v3, d.v4, d.v5, d.v6, d.v7]

/-- The lines the host prints for an event: one per register in fixed order, each from the register's label and its
value in decimal by the open `debug_line_format` (R42, decision D13; log entry 8). -/
def DebugDump.lines (d : DebugDump) : List String :=
  List.zipWith (fun r v => Config.debugLineFormat r.label (Nat.repr v.toNat)) Reg.all d.values

end Sys2Proof.Machine
end

