-- ==== Sys2Proof/WellFormed.lean ====
section
/-! DEFINITION. Well-formedness of instructions and programs. An ill-formed instruction still decodes and still has a
meaning, the fault RegisterIndexOutOfRange (30_encoding.md R77, R83); an ill-formed program is one the host may not
lend (00_scope.md R7, decision D10). -/

namespace Sys2Proof

/-- The register operands of an instruction, in operand-word order (R165's columns, 40_cycle.md R96's order). -/
def Instr.regOperands : Instr → List Word
  | .halt => []
  | .setRegImm dst _ => [dst]
  | .setRegReg dst src => [dst, src]
  | .addRegReg a b => [a, b]
  | .addRegImm a _ => [a]
  | .cmpRegImm reg _ => [reg]
  | .jumpEq _ => []
  | .jumpNotEq _ => []
  | .debugRegs => []

/-- A register operand is valid when it is below 8; it is not truncated (R77). -/
def validRegIndex (i : Word) : Bool := decide (i.toNat < Config.numRegisters)

/-- Every register operand of the instruction names a register: "all indices used by instructions must lie in [0,7]" (R77). -/
def Instr.wellFormed (i : Instr) : Bool := i.regOperands.all validRegIndex

/-- A program the host may lend: its length is at most `2^64 − 1` (R7, decision D10). -/
def programWellFormed (p : List Word) : Bool := decide (p.length ≤ Config.maxProgramLength)

end Sys2Proof
end

