-- ==== Sys2Proof/Safety.lean ====
section
/-! DEFINITION. What the statements about the sbyl CORE speak of: what an instruction leaves unchanged, the invariant
that every step keeps, the fault a cycle reports (spec 60_exceptions.md R166) and the pc it ends with (40_cycle.md R95). -/

namespace Sys2Proof.Machine

/-- Everything but the registers is unchanged: the status, every byte of the stack memory, the program, the debug
stream. -/
structure RestKept (s t : State) : Prop where
  status : t.status = s.status
  memory : ∀ a, t.memRead a = s.memRead a
  program : t.program = s.program
  debug : t.debug = s.debug

/-- The frame of an instruction that writes one register: every other register and everything else is unchanged. -/
def KeptExcept (r : Reg) (s t : State) : Prop :=
  (∀ q, q ≠ r → t.reg q = s.reg q) ∧ RestKept s t

/-- A program the host may lend stands in the state (00_scope.md R7, decision D10). -/
abbrev State.programFits (s : State) : Prop := s.program.length ≤ Config.maxProgramLength

/-- A cycle whose opcode is `op` and whose k-th operand word lies just past the program raises
ProgramAddressOutOfRange(pc + k) with nothing else changed (40_cycle.md R93, 60_exceptions.md R162). -/
def OperandFetchFaults (op : Opcode) : Prop :=
  ∀ (s : State) (k : Nat), s.status = .running → s.programFits →
    s.fetch (s.reg .pc) = .ok op.toWord → 1 ≤ k → k ≤ op.operandCount →
    s.program.length = (s.reg .pc).toNat + k →
    step s = .next { s with status := .faulted (.programAddressOutOfRange (s.reg .pc + BitVec.ofNat 64 k)) }

/-- What a faulted state says of the fault it holds: faults are precise (60_exceptions.md R160 to R164, R169). A fetch
or decode fault stands at the instruction's own address, an execute fault just after the instruction. -/
def FaultSound (s : State) : Fault → Prop
  | .unknownOpcode w => Config.numOpcodes ≤ w.toNat ∧ s.fetch (s.reg .pc) = .ok w
  | .programAddressOutOfRange a =>
      s.program.length ≤ a.toNat ∧ (a = s.reg .pc ∨ a = s.reg .pc + 1 ∨ a = s.reg .pc + 2)
  | .registerIndexOutOfRange i =>
      Config.numRegisters ≤ i.toNat ∧ 3 ≤ (s.reg .pc).toNat ∧ (s.reg .pc).toNat ≤ s.program.length ∧
      (s.fetch (s.reg .pc - 2) = .ok i ∨ s.fetch (s.reg .pc - 1) = .ok i)
  | .unsupportedOpcode op =>
      op = 6 ∧ 2 ≤ (s.reg .pc).toNat ∧ (s.reg .pc).toNat ≤ s.program.length ∧ s.fetch (s.reg .pc - 2) = .ok 6

/-- The invariant of the machine, over all states and not only those a run reaches. -/
structure State.Inv (s : State) : Prop where
  /-- The stack memory keeps its canonical form. -/
  stackCanonical : s.stack.wf = true
  /-- Every byte of the stack reads 0: it is zero from reset and never changes (R35, decision D17). -/
  stackZero : ∀ a, a < Config.stackBytes → s.memRead a = some 0
  /-- L is at most `2^64 − 1` (R7). -/
  programFits : s.programFits
  /-- A fault is precise (R169). -/
  faultSound : ∀ f, s.status = .faulted f → FaultSound s f
  /-- A halted core stands just after a Halt (R151). -/
  haltSound : s.status = .halted →
    1 ≤ (s.reg .pc).toNat ∧ (s.reg .pc).toNat ≤ s.program.length ∧ s.fetch (s.reg .pc - 1) = .ok 0
  /-- Every dump shows an advanced pc, which is never 0 (R150, R27). -/
  dumpsAdvanced : ∀ d ∈ s.debug, d.v0 ≠ 0

/-- The word k words after pc as a number, 0 where the program holds none. -/
def State.wordAfterPc (s : State) (k : Nat) : Nat := (s.program.getD ((s.reg .pc).toNat + k) 0).toNat

/-- R166's list of what a cycle may report, in its order: each condition with the fault it raises. The word w at pc is the opcode
word, and o1 and o2 the words after it; opcodes 1 to 7 have a first operand, 1 to 5 a second (R74), 1 to 5 name a
register first, 2 and 3 a register second (R165). -/
def State.faultCandidates (s : State) : List (Bool × Fault) :=
  let a := (s.reg .pc).toNat
  let l := s.program.length
  let w := s.wordAfterPc 0
  let o1 := s.wordAfterPc 1
  let o2 := s.wordAfterPc 2
  [ (decide (l ≤ a), .programAddressOutOfRange (s.reg .pc)),
    (decide (9 ≤ w), .unknownOpcode (BitVec.ofNat 64 w)),
    (decide (1 ≤ w ∧ w ≤ 7 ∧ l ≤ a + 1), .programAddressOutOfRange (s.reg .pc + 1)),
    (decide (1 ≤ w ∧ w ≤ 5 ∧ l ≤ a + 2), .programAddressOutOfRange (s.reg .pc + 2)),
    (decide (1 ≤ w ∧ w ≤ 5 ∧ 8 ≤ o1), .registerIndexOutOfRange (BitVec.ofNat 64 o1)),
    (decide (2 ≤ w ∧ w ≤ 3 ∧ 8 ≤ o2), .registerIndexOutOfRange (BitVec.ofNat 64 o2)),
    (decide (w = 6), .unsupportedOpcode 6) ]

/-- The one fault a cycle reports: the first of R166's list whose condition holds. -/
def State.firstFault (s : State) : Option Fault :=
  (s.faultCandidates.find? Prod.fst).map Prod.snd

/-- The run status a cycle from a running state ends with, by R166 and R97. -/
def State.expectedStatus (s : State) : RunStatus :=
  match s.firstFault with
  | some f => .faulted f
  | none => if s.wordAfterPc 0 = 0 then .halted else .running

/-- A register as an instruction reads it after the PC advance to `next` (R94, R196). -/
def State.regAfterAdvance (s : State) (next : Word) (r : Reg) : Word :=
  if r = .pc then next else s.reg r

/-- The program_counter_mux: the pc at the end of a cycle, by R95's table. -/
def State.nextPc (s : State) : Word :=
  match s.fetchDecode with
  | .error _ => s.reg .pc
  | .ok (.jumpNotEq addr) => if s.reg .ac = 1 then s.reg .pc + 2 else addr
  | .ok (.setRegImm dst imm) => if dst = 0 then imm else s.reg .pc + 3
  | .ok (.setRegReg dst src) =>
      if dst = 0 then
        match Reg.ofIndex src with
        | some r => s.regAfterAdvance (s.reg .pc + 3) r
        | none => s.reg .pc + 3
      else s.reg .pc + 3
  | .ok i => s.reg .pc + BitVec.ofNat 64 i.size

/-- The registers an instruction may write in execute: its destination, ac, or pc of a taken branch (R23, R34). -/
def MayWrite (i : Instr) (s : State) (r : Reg) : Prop :=
  match i with
  | .setRegImm dst _ => r.index = dst
  | .setRegReg dst _ => r.index = dst
  | .addRegReg _ _ => r = .ac
  | .addRegImm _ _ => r = .ac
  | .cmpRegImm _ _ => r = .ac
  | .jumpNotEq _ => r = .pc ∧ s.reg .ac ≠ 1
  | .halt => False
  | .jumpEq _ => False
  | .debugRegs => False

end Sys2Proof.Machine
end

