-- ==== Sys2Proof/Certificates/Slice0/Obligations.lean ====
section
/-! DEFINITION. The statements for the provers about the sbyl CORE. Each says which rule of spec/ it formalises.
`exec` runs on the state whose pc the decoder has already advanced (00_scope.md R11, 40_cycle.md R94); `step` is a
whole cycle. -/

open Sys2Proof Sys2Proof.Machine

/-! ### Reset and the host's moves -/

/-- R44, R190: construction sets every register and every stack byte to 0, and no run is in progress. -/
def Obligations.ResetZeroesRegistersAndStack : Prop :=
  (∀ r, State.reset.reg r = 0) ∧ (∀ a, a < 4096 → State.reset.memRead a = some 0) ∧
  State.reset.status = .notRunning

/-- R192: a run starts with status Running and with the registers and the stack the core holds; a core that has just been
reset starts at address 0. That the start of a run does not clear the recorded events is the model's choice (log entry 7,
DESIGN CHOICE). -/
def Obligations.RunStartsFromTheHeldState : Prop :=
  (∀ (s : State) (p : List Word), s.status ≠ .running → p.length ≤ 2 ^ 64 - 1 →
    ∃ t, s.startRun p = some t ∧ t.status = .running ∧ t.program = p ∧
      (∀ r, t.reg r = s.reg r) ∧ (∀ a, t.memRead a = s.memRead a) ∧ t.debug = s.debug) ∧
  (∀ (p : List Word) (t : State), State.reset.startRun p = some t → t.reg .pc = 0)

/-- The model's choice (log entry 5): the host starts no run while one is in progress, and lends no program longer than
`2^64 − 1` words. -/
def Obligations.RunStartTurnedAway : Prop :=
  ∀ (s : State) (p : List Word), s.startRun p = none ↔ s.status = .running ∨ 2 ^ 64 - 1 < p.length

/-- R171: the outcome of a run is Ok after Halt and Err(f) after fault f, the registers readable after both; a run that
has not ended has no outcome. -/
def Obligations.RunOutcomeFollowsStatus : Prop :=
  ∀ s : State,
    (s.status = .halted ↔ s.outcome = some .ok) ∧
    (∀ f, s.status = .faulted f ↔ s.outcome = some (.err f)) ∧
    (s.status = .running → s.outcome = none) ∧
    (∀ o, s.outcome = some o → s.readout = some s.regs)

/-- The model's choice (log entry 3) for R37's "A cycle is taken only in `Running`": a step of a core with no run in
progress changes nothing. -/
def Obligations.NoCycleOutsideRunning : Prop :=
  ∀ s : State, s.status ≠ .running → step s = .next s

/-- The same along any number of steps: an ended run stays ended, with its registers (R179, log entry 3). -/
def Obligations.EndedRunStaysEnded : Prop :=
  ∀ (k : Nat) (s : State), s.status ≠ .running →
    Sys2Proof.core.run k s = (Host.Outcome.next s : Host.Outcome State Fault Refusal)

/-! ### Encoding -/

/-- R77, R21: an index word below 8 names the register of that index and no other word names a register. -/
def Obligations.IndexWordNamesRegister : Prop :=
  (∀ (w : Word) (r : Reg), Reg.ofIndex w = some r ↔ w = r.index) ∧
  (∀ w : Word, Reg.ofIndex w = none ↔ 8 ≤ w.toNat) ∧
  Reg.all.map Reg.index = [0, 1, 2, 3, 4, 5, 6, 7]

/-- R75: the whole opcode word selects the opcode, and every word from 9 up is no opcode. -/
def Obligations.WholeWordSelectsOpcode : Prop :=
  (∀ (w : Word) (op : Opcode), Opcode.ofWord w = some op ↔ w = op.toWord) ∧
  (∀ w : Word, Opcode.ofWord w = none ↔ 9 ≤ w.toNat) ∧
  Opcode.ofWord 0x0000000100000001 = none ∧
  (∀ (w : Word) (ws : List Word), 9 ≤ w.toNat → decode (w :: ws) = .error (.unknownOpcode w))

/-- R71, R73, R74, R79, R80: the words of every instruction, at their offsets, and their number, 1 + n. -/
def Obligations.EncodingHasTheSpecsFormat : Prop :=
  encode .halt = [0] ∧
  (∀ dst imm, encode (.setRegImm dst imm) = [1, dst, imm]) ∧
  (∀ dst src, encode (.setRegReg dst src) = [2, dst, src]) ∧
  (∀ a b, encode (.addRegReg a b) = [3, a, b]) ∧
  (∀ a imm, encode (.addRegImm a imm) = [4, a, imm]) ∧
  (∀ reg imm, encode (.cmpRegImm reg imm) = [5, reg, imm]) ∧
  (∀ addr, encode (.jumpEq addr) = [6, addr]) ∧
  (∀ addr, encode (.jumpNotEq addr) = [7, addr]) ∧
  encode .debugRegs = [8] ∧
  (∀ i : Instr, (encode i).length = 1 + i.opcode.operandCount) ∧
  [Opcode.halt, .setRegImm, .setRegReg, .addRegReg, .addRegImm, .cmpRegImm, .jumpEq, .jumpNotEq, .debugRegs].map
    (fun op => (op.toWord.toNat, op.operandCount))
    = [(0, 0), (1, 2), (2, 2), (3, 2), (4, 2), (5, 2), (6, 1), (7, 1), (8, 0)]

/-- R86: the encoding examples decode to the instructions they stand for; JumpEq faults at execute and 99 is unknown. -/
def Obligations.SampleWordsDecode : Prop :=
  decode [0] = .ok .halt ∧ decode [8] = .ok .debugRegs ∧
  decode [1, 4, 5] = .ok (.setRegImm Reg.r1.index 5) ∧
  decode [2, 4, 2] = .ok (.setRegReg Reg.r1.index Reg.ac.index) ∧
  decode [3, 4, 5] = .ok (.addRegReg Reg.r1.index Reg.r2.index) ∧
  decode [4, 6, 1] = .ok (.addRegImm Reg.r3.index 1) ∧
  decode [5, 6, 55] = .ok (.cmpRegImm Reg.r3.index 55) ∧
  decode [7, 9] = .ok (.jumpNotEq 9) ∧
  decode [6, 9] = .ok (.jumpEq 9) ∧
  (∀ s, exec (.jumpEq 9) s = .next { s with status := .faulted (.unsupportedOpcode 6) }) ∧
  decode [99] = .error (.unknownOpcode 99)

/-- Decode and encode agree: the decoder reads back every encoded instruction, with any operand words and whatever words
follow, and words decode to an instruction only when they begin with its encoding, so no word has two meanings. -/
def Obligations.DecodeAndEncodeAgree : Prop :=
  (∀ (i : Instr) (rest : List Word), decode (encode i ++ rest) = .ok i) ∧
  (∀ (ws : List Word) (i : Instr), decode ws = .ok i ↔ encode i <+: ws)

/-- When the decoder fails: an unknown opcode word, found before any operand is read, or a list that ends inside the
instruction (R81, R92, R93). -/
def Obligations.DecodeFailsExactlyWhen : Prop :=
  (∀ (ws : List Word) (w : Word), decode ws = .error (.unknownOpcode w) ↔ ws.head? = some w ∧ 9 ≤ w.toNat) ∧
  (∀ (ws : List Word) (k : Nat), decode ws = .error (.missingWord k) ↔
    k = ws.length ∧ (k = 0 ∨ ∃ op : Opcode, ws.head? = some op.toWord ∧ k ≤ op.operandCount))

/-! ### The cycle -/

/-- R51's pseudocode: `Fetch(a)` is the program word at `a` below L, and ProgramAddressOutOfRange(a) from L up. -/
def Obligations.FetchReadsTheProgram : Prop :=
  ∀ (s : State) (a : Word),
    (∀ h : a.toNat < s.program.length, s.fetch a = .ok (s.program[a.toNat]'h)) ∧
    (s.program.length ≤ a.toNat → s.fetch a = .error (.programAddressOutOfRange a))

/-- A step runs the instruction that the program's words at pc decode to, on the state whose pc has moved past it
(R90, R94). -/
def Obligations.StepRunsTheDecodedInstruction : Prop :=
  ∀ (s : State) (i : Instr), s.status = .running → s.programFits →
    decode (s.program.drop (s.reg .pc).toNat) = .ok i →
    step s = exec i (s.setReg .pc (s.reg .pc + 1 + BitVec.ofNat 64 i.opcode.operandCount))

/-- R70: a program is instructions laid out one after the other with no padding; a step whose pc is at the first word of one
of them runs that instruction, whatever stands before and after it. -/
def Obligations.LaidOutInstructionRuns : Prop :=
  ∀ (s : State) (before : List Instr) (i : Instr) (after : List Instr), s.status = .running → s.programFits →
    s.program = before.flatMap encode ++ encode i ++ after.flatMap encode →
    (s.reg .pc).toNat = (before.flatMap encode).length →
    step s = exec i (s.advancePc i) ∧
    ((s.advancePc i).reg .pc).toNat = (before.flatMap encode).length + (encode i).length

/-- R94, R100, R27: after the decode of an instruction at address a, before it executes, pc is a + 1 + n, an ordinary sum that is
at most L, and no other register has changed. -/
def Obligations.DecodeAdvancesPcWithoutWrapping : Prop :=
  ∀ (s : State) (i : Instr), s.status = .running → s.programFits → s.fetchDecode = .ok i →
    step s = exec i (s.advancePc i) ∧
    ((s.advancePc i).reg .pc).toNat = (s.reg .pc).toNat + 1 + i.opcode.operandCount ∧
    (s.reg .pc).toNat + 1 + i.opcode.operandCount ≤ s.program.length ∧
    (∀ q, q ≠ .pc → (s.advancePc i).reg q = s.reg q) ∧ RestKept s (s.advancePc i)

/-- R91: a cycle whose pc is at or past L raises ProgramAddressOutOfRange(pc), and nothing else changes. -/
def Obligations.FetchPastTheEndFaults : Prop :=
  ∀ s : State, s.status = .running → s.program.length ≤ (s.reg .pc).toNat →
    step s = .next { s with status := .faulted (.programAddressOutOfRange (s.reg .pc)) }

/-- R161, R92: an opcode word that is not one of 0 to 8 raises UnknownOpcode with that very word, and nothing else changes. -/
def Obligations.UnknownOpcodeFaults : Prop :=
  ∀ (s : State) (w : Word), s.status = .running → s.fetch (s.reg .pc) = .ok w → 9 ≤ w.toNat →
    step s = .next { s with status := .faulted (.unknownOpcode w) }

/-- R93: an operand word past the end raises ProgramAddressOutOfRange of its address, before the PC advance, and
nothing else changes; for every opcode and operand. -/
def Obligations.MissingOperandFaults : Prop :=
  ∀ op : Opcode, OperandFetchFaults op

/-- R95: the pc at the end of a cycle is the one the table gives. -/
def Obligations.NextPcFollowsTheTable : Prop :=
  ∀ s t : State, s.status = .running → step s = .next t → t.reg .pc = s.nextPc

/-- R166: a cycle reports the first fault of the list whose condition holds, and none when none does; then the status is
Halted for the opcode word 0, since only Halt returns stop, and Running otherwise (R97). -/
def Obligations.FirstFaultInPriorityOrder : Prop :=
  ∀ s : State, s.status = .running → s.programFits →
    ∃ t, step s = .next t ∧ t.status = s.expectedStatus

/-- R99: when a cycle raises a fault the status is Faulted(f), no further cycle is taken and the outcome is Err(f); the
registers are those of R95's fault cases, and everything else is kept. That a step of the faulted core then answers the
same state is the model's reading of "no further cycle is taken" (log entry 3, DEDUCED). -/
def Obligations.FaultEndsTheRun : Prop :=
  ∀ (s t : State) (f : Fault), s.status = .running → step s = .next t → t.status = .faulted f →
    t.outcome = some (.err f) ∧ step t = .next t ∧
    (∀ q, q ≠ .pc → t.reg q = s.reg q) ∧ (∀ a, t.memRead a = s.memRead a) ∧
    t.program = s.program ∧ t.debug = s.debug ∧
    (match f with
     | .unknownOpcode _ => t.reg .pc = s.reg .pc
     | .programAddressOutOfRange _ => t.reg .pc = s.reg .pc
     | .registerIndexOutOfRange _ => ∃ i, s.fetchDecode = .ok i ∧ t.reg .pc = s.reg .pc + BitVec.ofNat 64 i.size
     | .unsupportedOpcode _ => ∃ i, s.fetchDecode = .ok i ∧ t.reg .pc = s.reg .pc + BitVec.ofNat 64 i.size)

/-- Every state has a next state: no step ends in a host fault or a refusal (log entry 1). -/
def Obligations.EveryStepHasANextState : Prop :=
  ∀ s : State, ∃ t, step s = .next t

/-- R196: an instruction that reads register 0 reads the address after it, a + 3. -/
def Obligations.ReadOfPcSeesTheAdvancedPc : Prop :=
  ∀ s : State, s.status = .running →
    (∀ r : Reg, s.fetchDecode = .ok (.setRegReg r.index 0) →
      ∃ t, step s = .next t ∧ t.reg r = s.reg .pc + 3) ∧
    (s.fetchDecode = .ok (.addRegReg 0 0) →
      ∃ t, step s = .next t ∧ t.reg .ac = (s.reg .pc + 3) + (s.reg .pc + 3)) ∧
    (∀ r : Reg, r ≠ .pc → s.fetchDecode = .ok (.addRegReg 0 r.index) →
      ∃ t, step s = .next t ∧ t.reg .ac = (s.reg .pc + 3) + s.reg r) ∧
    (∀ r : Reg, r ≠ .pc → s.fetchDecode = .ok (.addRegReg r.index 0) →
      ∃ t, step s = .next t ∧ t.reg .ac = s.reg r + (s.reg .pc + 3)) ∧
    (∀ imm : Word, s.fetchDecode = .ok (.addRegImm 0 imm) →
      ∃ t, step s = .next t ∧ t.reg .ac = (s.reg .pc + 3) + imm) ∧
    (∀ imm : Word, s.fetchDecode = .ok (.cmpRegImm 0 imm) →
      ∃ t, step s = .next t ∧ t.reg .ac = compare3 (s.reg .pc + 3) imm)

/-! ### Execute: what holds of every instruction -/

/-- R163, R96: the first register operand in word order that is 8 or more raises RegisterIndexOutOfRange of it, and nothing
else changes. -/
def Obligations.BadRegisterIndexFaults : Prop :=
  ∀ (i : Instr) (s : State) (w : Word), i.regOperands.find? (fun o => decide (8 ≤ o.toNat)) = some w →
    exec i s = .next { s with status := .faulted (.registerIndexOutOfRange w) }

/-- R97: every well-formed instruction but JumpEq completes; only Halt stops the run, every other leaves the status. -/
def Obligations.OnlyHaltStops : Prop :=
  ∀ (i : Instr) (s : State), i.wellFormed = true → i.opcode ≠ .jumpEq →
    ∃ t, exec i s = .next t ∧ t.status = if i = .halt then .halted else s.status

/-- R34: an instruction writes at most one register in its execute phase, the one its rule names; nothing writes the
stack or the program. -/
def Obligations.ExecuteWritesAtMostOneRegister : Prop :=
  ∀ (i : Instr) (s t : State), exec i s = .next t →
    (∀ q, t.reg q ≠ s.reg q → MayWrite i s q) ∧
    (∀ q r, MayWrite i s q → MayWrite i s r → q = r) ∧
    (∀ a, t.memRead a = s.memRead a) ∧ t.program = s.program

/-- A register that an instruction does not name, other than pc and ac, neither changes nor matters in its cycle:
so sp and fl have no implicit use (R28, R32). -/
def Obligations.UnnamedRegisterHasNoEffect : Prop :=
  ∀ (s t : State) (i : Instr) (q : Reg) (v : Word), s.status = .running → s.fetchDecode = .ok i →
    i ≠ .debugRegs → q ≠ .pc → q ≠ .ac → q.index ∉ i.regOperands → step s = .next t →
    t.reg q = s.reg q ∧ step (s.setReg q v) = .next (t.setReg q v)

/-! ### Moves -/

/-- R110: SetRegImm writes its immediate to its destination register, whichever of the eight it is, and nothing else. -/
def Obligations.SetRegImmWritesItsDestination : Prop :=
  (∀ dst imm, encode (.setRegImm dst imm) = [1, dst, imm]) ∧
  (∀ (s : State) (r : Reg) (imm : Word),
    ∃ t, exec (.setRegImm r.index imm) s = .next t ∧ t.reg r = imm ∧ KeptExcept r s t) ∧
  (∀ (s : State) (dst imm : Word), 8 ≤ dst.toNat →
    exec (.setRegImm dst imm) s = .next { s with status := .faulted (.registerIndexOutOfRange dst) }) ∧
  OperandFetchFaults .setRegImm

/-- R111: SetRegReg copies its source register to its destination, and nothing else; a bad dst is reported before a bad src. -/
def Obligations.SetRegRegCopiesARegister : Prop :=
  (∀ dst src, encode (.setRegReg dst src) = [2, dst, src]) ∧
  (∀ (s : State) (d r : Reg),
    ∃ t, exec (.setRegReg d.index r.index) s = .next t ∧ t.reg d = s.reg r ∧ KeptExcept d s t) ∧
  (∀ (s : State) (dst src : Word), 8 ≤ dst.toNat →
    exec (.setRegReg dst src) s = .next { s with status := .faulted (.registerIndexOutOfRange dst) }) ∧
  (∀ (s : State) (d : Reg) (src : Word), 8 ≤ src.toNat →
    exec (.setRegReg d.index src) s = .next { s with status := .faulted (.registerIndexOutOfRange src) }) ∧
  OperandFetchFaults .setRegReg

/-! ### Arithmetic -/

/-- R120: the ALU adds two u64 values modulo `2^64`. -/
def Obligations.AdditionIsModulo : Prop :=
  ∀ u v : Word, (add64 u v).toNat = (u.toNat + v.toNat) % 2 ^ 64

/-- R121: AddRegReg writes the sum of its two registers modulo `2^64` to ac, whatever registers it names, and nothing else. -/
def Obligations.AddRegRegWritesTheSumToAc : Prop :=
  (∀ a b, encode (.addRegReg a b) = [3, a, b]) ∧
  (∀ (s : State) (a b : Reg),
    ∃ t, exec (.addRegReg a.index b.index) s = .next t ∧
      (t.reg .ac).toNat = ((s.reg a).toNat + (s.reg b).toNat) % 2 ^ 64 ∧ KeptExcept .ac s t) ∧
  (∀ (s : State) (a b : Word), 8 ≤ a.toNat →
    exec (.addRegReg a b) s = .next { s with status := .faulted (.registerIndexOutOfRange a) }) ∧
  (∀ (s : State) (a : Reg) (b : Word), 8 ≤ b.toNat →
    exec (.addRegReg a.index b) s = .next { s with status := .faulted (.registerIndexOutOfRange b) }) ∧
  OperandFetchFaults .addRegReg

/-- R122: AddRegImm writes the sum of its register and its immediate modulo `2^64` to ac, and nothing else. -/
def Obligations.AddRegImmWritesTheSumToAc : Prop :=
  (∀ a imm, encode (.addRegImm a imm) = [4, a, imm]) ∧
  (∀ (s : State) (a : Reg) (imm : Word),
    ∃ t, exec (.addRegImm a.index imm) s = .next t ∧
      (t.reg .ac).toNat = ((s.reg a).toNat + imm.toNat) % 2 ^ 64 ∧ KeptExcept .ac s t) ∧
  (∀ (s : State) (a imm : Word), 8 ≤ a.toNat →
    exec (.addRegImm a imm) s = .next { s with status := .faulted (.registerIndexOutOfRange a) }) ∧
  OperandFetchFaults .addRegImm

/-! ### Compare and branch -/

/-- R130: the three-way compare of unsigned integers: 0 greater, 1 equal, 2 less. -/
def Obligations.CompareIsUnsignedThreeWay : Prop :=
  ∀ u v : Word,
    (v.toNat < u.toNat → compare3 u v = 0) ∧ (u.toNat = v.toNat → compare3 u v = 1) ∧
    (u.toNat < v.toNat → compare3 u v = 2)

/-- R131: CmpRegImm writes 0, 1 or 2 to ac as its register is greater than, equal to or less than its immediate, unsigned, and
nothing else. -/
def Obligations.CmpRegImmWritesTheConditionCode : Prop :=
  (∀ reg imm, encode (.cmpRegImm reg imm) = [5, reg, imm]) ∧
  (∀ (s : State) (r : Reg) (imm : Word),
    ∃ t, exec (.cmpRegImm r.index imm) s = .next t ∧
      (imm.toNat < (s.reg r).toNat → t.reg .ac = 0) ∧ ((s.reg r).toNat = imm.toNat → t.reg .ac = 1) ∧
      ((s.reg r).toNat < imm.toNat → t.reg .ac = 2) ∧ KeptExcept .ac s t) ∧
  (∀ (s : State) (reg imm : Word), 8 ≤ reg.toNat →
    exec (.cmpRegImm reg imm) s = .next { s with status := .faulted (.registerIndexOutOfRange reg) }) ∧
  OperandFetchFaults .cmpRegImm

/-- R132: JumpNotEq sets pc to its address when ac is not 1, and changes nothing when ac is 1; the address is not checked. -/
def Obligations.JumpNotEqBranchesUnlessAcIsOne : Prop :=
  (∀ addr, encode (.jumpNotEq addr) = [7, addr]) ∧
  (∀ (s : State) (addr : Word), s.reg .ac ≠ 1 →
    ∃ t, exec (.jumpNotEq addr) s = .next t ∧ t.reg .pc = addr ∧ KeptExcept .pc s t) ∧
  (∀ (s : State) (addr : Word), s.reg .ac = 1 → exec (.jumpNotEq addr) s = .next s) ∧
  OperandFetchFaults .jumpNotEq

/-- R133: JumpEq decodes, advances pc by 2 and then always raises UnsupportedOpcode(6), whatever ac and its address. -/
def Obligations.JumpEqIsUnsupported : Prop :=
  (∀ addr, encode (.jumpEq addr) = [6, addr]) ∧
  (∀ (s : State) (addr : Word),
    exec (.jumpEq addr) s = .next { s with status := .faulted (.unsupportedOpcode 6) }) ∧
  (∀ (s : State) (addr : Word), s.status = .running → s.fetchDecode = .ok (.jumpEq addr) →
    ∃ t, step s = .next t ∧ t.status = .faulted (.unsupportedOpcode 6) ∧ t.reg .pc = s.reg .pc + 2 ∧
      (∀ q, q ≠ .pc → t.reg q = s.reg q)) ∧
  OperandFetchFaults .jumpEq

/-- R199: when a JumpNotEq falls through, ac is 1 afterwards. -/
def Obligations.FallThroughLeavesAcOne : Prop :=
  ∀ (s t : State) (addr : Word), s.status = .running → s.fetchDecode = .ok (.jumpNotEq addr) →
    step s = .next t → addr ≠ s.reg .pc + 2 → t.reg .pc = s.reg .pc + 2 → t.reg .ac = 1

/-- A JumpNotEq to its own address with ac not 1 loops for ever: no number of steps ends it (R132's corner case, R98). -/
def Obligations.JumpToItselfNeverEnds : Prop :=
  ∀ s : State, s.status = .running → s.fetch (s.reg .pc) = .ok 7 → s.fetch (s.reg .pc + 1) = .ok (s.reg .pc) →
    s.reg .ac ≠ 1 → ∀ k, Sys2Proof.core.run k s = (Host.Outcome.next s : Host.Outcome State Fault Refusal)

/-- R85: the idioms of the instruction set: an unconditional jump, a move out of ac, increment, decrement, and a read of the
next instruction's address. -/
def Obligations.IdiomsDoWhatTheyAreUsedFor : Prop :=
  (∀ (s : State) (target : Word), s.status = .running → s.fetchDecode = .ok (.setRegImm Reg.pc.index target) →
    ∃ t, step s = .next t ∧ t.reg .pc = target ∧ KeptExcept .pc s t) ∧
  (∀ (s : State) (r : Reg), s.status = .running → s.fetchDecode = .ok (.setRegReg r.index Reg.ac.index) →
    ∃ t, step s = .next t ∧ t.reg r = s.reg .ac) ∧
  (∀ (s t : State) (r : Reg), r ≠ .pc → s.status = .running → s.fetchDecode = .ok (.addRegImm r.index 1) →
    step s = .next t → t.fetchDecode = .ok (.setRegReg r.index Reg.ac.index) →
    ∃ u, step t = .next u ∧ u.reg r = s.reg r + 1) ∧
  (∀ (s t : State) (r : Reg), r ≠ .pc → s.status = .running →
    s.fetchDecode = .ok (.addRegImm r.index 0xFFFFFFFFFFFFFFFF) →
    step s = .next t → t.fetchDecode = .ok (.setRegReg r.index Reg.ac.index) →
    ∃ u, step t = .next u ∧ u.reg r = s.reg r - 1) ∧
  (∀ (s : State) (r : Reg), s.status = .running → s.fetchDecode = .ok (.setRegReg r.index Reg.pc.index) →
    ∃ t, step s = .next t ∧ t.reg r = s.reg .pc + 3)

/-! ### System -/

/-- R150: DebugRegs emits the eight register values in index order, pc being the advanced pc, and changes nothing else. -/
def Obligations.DebugRegsEmitsTheRegisters : Prop :=
  encode .debugRegs = [8] ∧
  (∀ s : State, ∃ t, exec .debugRegs s = .next t ∧
    t.debug = s.debug ++ [⟨s.reg .pc, s.reg .sp, s.reg .ac, s.reg .fl, s.reg .r1, s.reg .r2, s.reg .r3, s.reg .r4⟩] ∧
    (∀ q, t.reg q = s.reg q) ∧ (∀ a, t.memRead a = s.memRead a) ∧ t.status = s.status ∧ t.program = s.program) ∧
  (∀ s : State, s.status = .running → s.fetch (s.reg .pc) = .ok 8 →
    ∃ t, step s = .next t ∧ t.status = .running ∧ t.reg .pc = s.reg .pc + 1 ∧ (∀ q, q ≠ .pc → t.reg q = s.reg q) ∧
      t.debug = s.debug ++
        [⟨s.reg .pc + 1, s.reg .sp, s.reg .ac, s.reg .fl, s.reg .r1, s.reg .r2, s.reg .r3, s.reg .r4⟩])

/-- R151: Halt stops the run with no register mutation beyond the PC advance, and is the only way a run ends with Ok. -/
def Obligations.HaltStopsTheRun : Prop :=
  encode .halt = [0] ∧
  (∀ s : State, ∃ t, exec .halt s = .next t ∧ t.status = .halted ∧ (∀ q, t.reg q = s.reg q) ∧
    (∀ a, t.memRead a = s.memRead a) ∧ t.program = s.program ∧ t.debug = s.debug) ∧
  (∀ s : State, s.status = .running → s.fetch (s.reg .pc) = .ok 0 →
    ∃ t, step s = .next t ∧ t.status = .halted ∧ t.reg .pc = s.reg .pc + 1 ∧ (∀ q, q ≠ .pc → t.reg q = s.reg q)) ∧
  (∀ s t : State, s.status = .running → step s = .next t → t.status = .halted → s.fetch (s.reg .pc) = .ok 0)

/-- R42: each executed DebugRegs emits one event, nothing else does, and events come out in order; the lines of an event
show the registers in fixed order with decimal values, in the open line format. The stream as a list in State is log
entry 7, and a line as a function of label and decimal digits alone is log entry 8: both the model's (DESIGN CHOICE). -/
def Obligations.DebugStreamHasOneEventPerDebugRegs : Prop :=
  (∀ s t : State, s.status = .running → step s = .next t →
    (s.fetch (s.reg .pc) = .ok 8 → t.debug = s.debug ++
      [⟨s.reg .pc + 1, s.reg .sp, s.reg .ac, s.reg .fl, s.reg .r1, s.reg .r2, s.reg .r3, s.reg .r4⟩]) ∧
    (s.fetch (s.reg .pc) ≠ .ok 8 → t.debug = s.debug)) ∧
  (∀ d : DebugDump, d.lines =
    [Config.debugLineFormat "pc" (Nat.repr d.v0.toNat), Config.debugLineFormat "sp" (Nat.repr d.v1.toNat),
     Config.debugLineFormat "ac" (Nat.repr d.v2.toNat), Config.debugLineFormat "fl" (Nat.repr d.v3.toNat),
     Config.debugLineFormat "r1" (Nat.repr d.v4.toNat), Config.debugLineFormat "r2" (Nat.repr d.v5.toNat),
     Config.debugLineFormat "r3" (Nat.repr d.v6.toNat), Config.debugLineFormat "r4" (Nat.repr d.v7.toNat)])

/-! ### The whole machine -/

/-- R200: no instruction writes the program. -/
def Obligations.NoStepWritesTheProgram : Prop :=
  ∀ s t : State, step s = .next t → t.program = s.program

/-- R53: the stack space is 4096 bytes that no instruction addresses: a step keeps every byte, and what the stack holds changes
nothing else. -/
def Obligations.StackIsReachedByNoInstruction : Prop :=
  (∀ (s : State) (a : Nat), (s.memRead a).isSome = true ↔ a < 4096) ∧
  (∀ s t : State, step s = .next t → ∀ a, t.memRead a = s.memRead a) ∧
  (∀ (s t : State) (m : Memory), step s = .next t → step { s with stack := m } = .next { t with stack := m })

/-- The debug stream is write-only: what has been emitted before changes nothing in a step, which only adds to it. The
stream as a list in State is the model's choice (log entry 7, DESIGN CHOICE). -/
def Obligations.DebugStreamIsWriteOnly : Prop :=
  ∀ s t : State, step s = .next t →
    ∃ events, t.debug = s.debug ++ events ∧
      ∀ l, step { s with debug := l } = .next { t with debug := l ++ events }

/-- A cycle depends on no word of the program but the instruction's own: it fetches pc to pc + n (R58) and does the same
with any program that reads alike there. -/
def Obligations.CycleReadsOnlyTheInstructionsWords : Prop :=
  ∀ (s t : State) (i : Instr) (p : List Word), s.status = .running → s.fetchDecode = .ok i →
    (∀ k, k < i.size →
      ({ s with program := p } : State).fetch (s.reg .pc + BitVec.ofNat 64 k) = s.fetch (s.reg .pc + BitVec.ofNat 64 k)) →
    step s = .next t → step { s with program := p } = .next { t with program := p }

/-- The reset state has the invariant; its empty program is the model's choice (log entry 4, DESIGN CHOICE). -/
def Obligations.ResetHasTheInvariant : Prop := State.reset.Inv

/-- The host's start of a run keeps the invariant. -/
def Obligations.StartRunKeepsTheInvariant : Prop :=
  ∀ (s t : State) (p : List Word), s.Inv → s.startRun p = some t → t.Inv

/-- Every step keeps the invariant: the stack canonical and zero, L in range, faults and halts precise, every dump with an
advanced pc. -/
def Obligations.StepKeepsTheInvariant : Prop :=
  ∀ s t : State, s.Inv → step s = .next t → t.Inv

/-- From every state with the invariant, any number of steps ends in a next state with the invariant, the program
unchanged. -/
def Obligations.EveryRunKeepsTheInvariant : Prop :=
  ∀ (k : Nat) (s : State), s.Inv →
    ∃ t : State, Sys2Proof.core.run k s = (Host.Outcome.next t : Host.Outcome State Fault Refusal) ∧
      t.Inv ∧ t.program = s.program ∧ s.debug <+: t.debug

/-- The model's placing of an instruction for the host (log entry 5): the next step runs the placed instruction, and
nothing but the program and the status has changed. -/
def Obligations.PlacedInstructionRunsNext : Prop :=
  ∀ (s : State) (nbits w : Nat) (i : Instr), (s.reg .pc).toNat + 3 ≤ 2 ^ 64 - 1 →
    decodeTableWord nbits w = some i →
    step (s.withFetchWord nbits w) = exec i ((s.withFetchWord nbits w).advancePc i) ∧
    (∀ q, (s.withFetchWord nbits w).reg q = s.reg q) ∧
    (∀ a, (s.withFetchWord nbits w).memRead a = s.memRead a) ∧ (s.withFetchWord nbits w).debug = s.debug
end

