-- ==== Sys2Proof/Laws/Decode.lean ====
section
/-! SUPPORT. What the opcode map and the decoder can do, said once. -/

namespace Sys2Proof

@[simp] theorem Opcode.ofWord_toWord (op : Opcode) : Opcode.ofWord op.toWord = some op := by cases op <;> rfl

/-- The opcode map read backwards: a resolved word is that opcode's word. -/
theorem Opcode.ofWord_eq_some {w : Word} {op : Opcode} (h : Opcode.ofWord w = some op) : w = op.toWord := by
  apply BitVec.eq_of_toNat_eq
  unfold Opcode.ofWord at h
  split at h <;> first | (cases h; assumption) | cases h

/-- What one decode answers: an error of the first read, an unknown opcode, or the operand fetch. -/
theorem decodeFrom_cases {ε : Type} (read : Nat → Except ε Word) (unknown : Word → ε) :
    (∃ e, read 0 = .error e ∧ decodeFrom read unknown = .error e) ∨
    (∃ w, read 0 = .ok w ∧ Opcode.ofWord w = none ∧ decodeFrom read unknown = .error (unknown w)) ∨
    (∃ op, read 0 = .ok op.toWord ∧ decodeFrom read unknown = decodeOperands read op) := by
  unfold decodeFrom
  cases h0 : read 0 with
  | error e => exact .inl ⟨e, rfl, rfl⟩
  | ok w =>
    cases hw : Opcode.ofWord w with
    | none => exact .inr (.inl ⟨w, rfl, hw, by simp [hw]⟩)
    | some op => exact .inr (.inr ⟨op, by rw [Opcode.ofWord_eq_some hw], by simp [hw]⟩)

theorem readOne_ok {ε : Type} {read : Nat → Except ε Word} {make : Word → Instr} {i : Instr}
    (h : readOne read make = .ok i) : ∃ o1, read 1 = .ok o1 ∧ i = make o1 := by
  unfold readOne at h
  split at h
  · cases h
  · cases h; exact ⟨_, ‹_›, rfl⟩

theorem readTwo_ok {ε : Type} {read : Nat → Except ε Word} {make : Word → Word → Instr} {i : Instr}
    (h : readTwo read make = .ok i) : ∃ o1 o2, read 1 = .ok o1 ∧ read 2 = .ok o2 ∧ i = make o1 o2 := by
  unfold readTwo at h
  split at h
  · cases h
  · split at h
    · cases h
    · cases h; exact ⟨_, _, ‹_›, ‹_›, rfl⟩

/-- What a successful decode has read: the instruction's own words, at their offsets. -/
theorem decodeFrom_ok {ε : Type} {read : Nat → Except ε Word} {unknown : Word → ε} {i : Instr}
    (h : decodeFrom read unknown = .ok i) :
    ∀ k, k < i.size → ∃ w, (encode i)[k]? = some w ∧ read k = .ok w := by
  rcases decodeFrom_cases read unknown with ⟨e, _, he⟩ | ⟨w, _, _, he⟩ | ⟨op, h0, he⟩
  · rw [he] at h; cases h
  · rw [he] at h; cases h
  · rw [he] at h
    cases op <;> simp only [decodeOperands] at h
    case halt | debugRegs =>
      cases h; intro k hk
      obtain rfl : k = 0 := by simp [Instr.size, Instr.opcode, Opcode.operandCount] at hk; exact hk
      exact ⟨_, rfl, h0⟩
    case jumpEq | jumpNotEq =>
      obtain ⟨o1, h1, rfl⟩ := readOne_ok h
      intro k hk
      simp only [Instr.size, Instr.opcode, Opcode.operandCount] at hk
      match k, hk with
      | 0, _ => exact ⟨_, rfl, h0⟩
      | 1, _ => exact ⟨_, rfl, h1⟩
    case setRegImm | setRegReg | addRegReg | addRegImm | cmpRegImm =>
      obtain ⟨o1, o2, h1, h2, rfl⟩ := readTwo_ok h
      intro k hk
      simp only [Instr.size, Instr.opcode, Opcode.operandCount] at hk
      match k, hk with
      | 0, _ => exact ⟨_, rfl, h0⟩
      | 1, _ => exact ⟨_, rfl, h1⟩
      | 2, _ => exact ⟨_, rfl, h2⟩

end Sys2Proof
end

