-- ==== Sys2Proof/Laws/Memory.lean ====
section
/-! SUPPORT. The stack memory (spec 20_memory.md R54): a read after a write, and the canonical form that every memory
operation keeps. -/

namespace Sys2Proof.Machine

theorem Memory.wfFrom_mono {lo lo' : Nat} (h : lo' ≤ lo) {m : Memory} (hm : Memory.wfFrom lo m = true) :
    Memory.wfFrom lo' m = true := by
  cases m with
  | nil => rfl
  | cons c m =>
    simp only [Memory.wfFrom, Bool.and_eq_true, decide_eq_true_eq] at hm ⊢
    exact ⟨⟨⟨by omega, hm.1.1.2⟩, hm.1.2⟩, hm.2⟩

/-- A list that starts above an address holds no entry at it. -/
theorem Memory.read_below {lo a : Nat} (h : a < lo) {m : Memory} (hm : Memory.wfFrom lo m = true) :
    m.read a = Memory.unlisted := by
  induction m generalizing lo with
  | nil => rfl
  | cons c m ih =>
    simp only [Memory.wfFrom, Bool.and_eq_true, decide_eq_true_eq] at hm
    have hne : c.1 ≠ a := by omega
    simp only [Memory.read, hne, if_false]
    exact ih (by omega) hm.2

theorem Memory.read_write {lo : Nat} {m : Memory} (hm : Memory.wfFrom lo m = true) (a b : Nat) (v : Byte) :
    (m.write a v).read b = if b = a then v else m.read b := by
  induction m generalizing lo with
  | nil =>
    by_cases hb : b = a
    · subst hb
      by_cases hv : v = Memory.unlisted <;> simp [Memory.write, Memory.read, hv]
    · by_cases hv : v = Memory.unlisted <;> simp [Memory.write, Memory.read, hv, hb, Ne.symm hb]
  | cons c m ih =>
    simp only [Memory.wfFrom, Bool.and_eq_true, decide_eq_true_eq] at hm
    obtain ⟨⟨⟨_, _⟩, _⟩, htail⟩ := hm
    have hbelow : ∀ x, x < c.1 + 1 → Memory.read m x = Memory.unlisted := fun x hx => Memory.read_below hx htail
    simp only [Memory.write]
    by_cases hlt : a < c.1
    · simp only [hlt, if_true]
      by_cases hv : v = Memory.unlisted
      · simp only [hv, if_true]
        by_cases hb : b = a
        · subst hb
          simp [Memory.read, hbelow b (by omega), Nat.ne_of_gt hlt]
        · simp [hb]
      · by_cases hb : b = a
        · subst hb; simp [hv, Memory.read]
        · simp [hv, Memory.read, hb, Ne.symm hb]
    · simp only [hlt, if_false]
      by_cases hac : a = c.1
      · simp only [hac, if_true]
        by_cases hb : b = c.1
        · subst hb
          by_cases hv : v = Memory.unlisted
          · simp [hv, hbelow c.1 (by omega)]
          · simp [hv, Memory.read]
        · by_cases hv : v = Memory.unlisted <;> simp [hv, Memory.read, hb, Ne.symm hb]
      · simp only [hac, if_false, Memory.read, ih htail]
        by_cases hb : b = a
        · subst hb; simp [Ne.symm hac]
        · simp [hb]

theorem Memory.wfFrom_write {lo a : Nat} {m : Memory} (hm : Memory.wfFrom lo m = true) (hlo : lo ≤ a)
    (ha : a < Config.stackBytes) (v : Byte) : Memory.wfFrom lo (m.write a v) = true := by
  induction m generalizing lo with
  | nil =>
    by_cases hv : v = Memory.unlisted <;> simp [Memory.write, Memory.wfFrom, hv, hlo, ha]
  | cons c m ih =>
    simp only [Memory.wfFrom, Bool.and_eq_true, decide_eq_true_eq] at hm
    obtain ⟨⟨⟨h1, h2⟩, h3⟩, h4⟩ := hm
    simp only [Memory.write]
    by_cases hlt : a < c.1
    · by_cases hv : v = Memory.unlisted
      · simp [hlt, hv, Memory.wfFrom, h1, h2, h3, h4]
      · simp [hlt, hv, Memory.wfFrom, h2, h3, h4, hlo, ha, Nat.succ_le_of_lt hlt]
    · by_cases hac : a = c.1
      · subst hac
        by_cases hv : v = Memory.unlisted
        · simpa [hv] using Memory.wfFrom_mono (by omega) h4
        · simp [hv, Memory.wfFrom, h1, h2, h4]
      · simp only [hlt, hac, if_false, Memory.wfFrom, Bool.and_eq_true, decide_eq_true_eq]
        exact ⟨⟨⟨h1, h2⟩, h3⟩, ih h4 (by omega)⟩

/-- The one memory operation keeps the canonical form. -/
theorem State.memWrite_wf {s t : State} {a : Nat} {v : Byte} (hs : s.stack.wf = true)
    (h : s.memWrite a v = some t) : t.stack.wf = true := by
  unfold State.memWrite at h
  split at h
  · cases h
    exact Memory.wfFrom_write hs (Nat.zero_le a) ‹_› v
  · cases h

/-- A read after a one-byte write: the byte written at its address, every other byte as before (R54). -/
theorem State.memRead_memWrite {s t : State} {a : Nat} {v : Byte} (hs : s.stack.wf = true)
    (h : s.memWrite a v = some t) (b : Nat) : t.memRead b = if b = a then some v else s.memRead b := by
  unfold State.memWrite at h
  split at h
  case isTrue ha =>
    cases h
    simp only [State.memRead, Memory.read_write hs]
    by_cases hb : b = a
    · subst hb; simp [ha]
    · simp [hb]
  case isFalse => cases h

theorem State.reset_wf : State.reset.stack.wf = true := rfl

end Sys2Proof.Machine
end

