-- ==== Sys2Proof/Laws/State.lean ====
section
/-! SUPPORT. One lemma per field per update of State, all true by definition, and the laws of the register file. -/

namespace Sys2Proof.Machine

@[simp] theorem State.reset_status : State.reset.status = .notRunning := rfl
@[simp] theorem State.reset_stack : State.reset.stack = [] := rfl
@[simp] theorem State.reset_program : State.reset.program = [] := rfl
@[simp] theorem State.reset_debug : State.reset.debug = [] := rfl
theorem State.reset_reg (r : Reg) : State.reset.reg r = 0 := by cases r <;> rfl

theorem RegFile.get_set (x : RegFile) (r q : Reg) (v : Word) :
    (x.set r v).get q = if q = r then v else x.get q := by
  cases r <;> cases q <;> rfl

theorem State.reg_setReg (s : State) (r q : Reg) (v : Word) :
    (s.setReg r v).reg q = if q = r then v else s.reg q := RegFile.get_set s.regs r q v

@[simp] theorem State.reg_setReg_same (s : State) (r : Reg) (v : Word) : (s.setReg r v).reg r = v := by
  simp [State.reg_setReg]

theorem State.reg_setReg_other (s : State) {r q : Reg} (v : Word) (h : q ≠ r) :
    (s.setReg r v).reg q = s.reg q := by
  simp [State.reg_setReg, h]

@[simp] theorem State.setReg_stack (s : State) (r : Reg) (v : Word) : (s.setReg r v).stack = s.stack := rfl
@[simp] theorem State.setReg_status (s : State) (r : Reg) (v : Word) : (s.setReg r v).status = s.status := rfl
@[simp] theorem State.setReg_program (s : State) (r : Reg) (v : Word) : (s.setReg r v).program = s.program := rfl
@[simp] theorem State.setReg_debug (s : State) (r : Reg) (v : Word) : (s.setReg r v).debug = s.debug := rfl
@[simp] theorem State.setReg_memRead (s : State) (r : Reg) (v : Word) (a : Nat) :
    (s.setReg r v).memRead a = s.memRead a := rfl
@[simp] theorem State.setReg_fetch (s : State) (r : Reg) (v a : Word) : (s.setReg r v).fetch a = s.fetch a := rfl

@[simp] theorem State.withFault_regs (s : State) (f : Fault) : (s.withFault f).regs = s.regs := rfl
@[simp] theorem State.withFault_reg (s : State) (f : Fault) (r : Reg) : (s.withFault f).reg r = s.reg r := rfl
@[simp] theorem State.withFault_stack (s : State) (f : Fault) : (s.withFault f).stack = s.stack := rfl
@[simp] theorem State.withFault_status (s : State) (f : Fault) : (s.withFault f).status = .faulted f := rfl
@[simp] theorem State.withFault_program (s : State) (f : Fault) : (s.withFault f).program = s.program := rfl
@[simp] theorem State.withFault_debug (s : State) (f : Fault) : (s.withFault f).debug = s.debug := rfl
@[simp] theorem State.withFault_memRead (s : State) (f : Fault) (a : Nat) :
    (s.withFault f).memRead a = s.memRead a := rfl
@[simp] theorem State.withFault_fetch (s : State) (f : Fault) (a : Word) : (s.withFault f).fetch a = s.fetch a := rfl

@[simp] theorem State.afterSignal_goOn (s : State) : s.afterSignal .goOn = s := rfl
@[simp] theorem State.afterSignal_regs (s : State) (b : Signal) : (s.afterSignal b).regs = s.regs := by cases b <;> rfl
@[simp] theorem State.afterSignal_reg (s : State) (b : Signal) (r : Reg) : (s.afterSignal b).reg r = s.reg r := by
  cases b <;> rfl
@[simp] theorem State.afterSignal_stack (s : State) (b : Signal) : (s.afterSignal b).stack = s.stack := by cases b <;> rfl
@[simp] theorem State.afterSignal_stop_status (s : State) : (s.afterSignal .stop).status = .halted := rfl
@[simp] theorem State.afterSignal_program (s : State) (b : Signal) : (s.afterSignal b).program = s.program := by
  cases b <;> rfl
@[simp] theorem State.afterSignal_debug (s : State) (b : Signal) : (s.afterSignal b).debug = s.debug := by cases b <;> rfl

@[simp] theorem State.emit_regs (s : State) (d : DebugDump) : (s.emit d).regs = s.regs := rfl
@[simp] theorem State.emit_reg (s : State) (d : DebugDump) (r : Reg) : (s.emit d).reg r = s.reg r := rfl
@[simp] theorem State.emit_stack (s : State) (d : DebugDump) : (s.emit d).stack = s.stack := rfl
@[simp] theorem State.emit_status (s : State) (d : DebugDump) : (s.emit d).status = s.status := rfl
@[simp] theorem State.emit_program (s : State) (d : DebugDump) : (s.emit d).program = s.program := rfl
@[simp] theorem State.emit_debug (s : State) (d : DebugDump) : (s.emit d).debug = s.debug ++ [d] := rfl

@[simp] theorem State.advancePc_stack (s : State) (i : Instr) : (s.advancePc i).stack = s.stack := rfl
@[simp] theorem State.advancePc_status (s : State) (i : Instr) : (s.advancePc i).status = s.status := rfl
@[simp] theorem State.advancePc_program (s : State) (i : Instr) : (s.advancePc i).program = s.program := rfl
@[simp] theorem State.advancePc_debug (s : State) (i : Instr) : (s.advancePc i).debug = s.debug := rfl
@[simp] theorem State.advancePc_fetch (s : State) (i : Instr) (a : Word) : (s.advancePc i).fetch a = s.fetch a := rfl

@[simp] theorem State.advancePc_pc (s : State) (i : Instr) :
    (s.advancePc i).reg .pc = s.reg .pc + BitVec.ofNat 64 i.size := rfl

theorem State.advancePc_reg (s : State) (i : Instr) {r : Reg} (h : r ≠ .pc) :
    (s.advancePc i).reg r = s.reg r := State.reg_setReg_other s _ h

/-- Two states whose fields agree are one state; registers by name. -/
theorem State.ext_of_reg {s t : State} (hr : ∀ r, t.reg r = s.reg r) (hk : t.stack = s.stack)
    (hs : t.status = s.status) (hp : t.program = s.program) (hd : t.debug = s.debug) : t = s := by
  obtain ⟨⟨_, _, _, _, _, _, _, _⟩, _, _, _, _⟩ := s
  obtain ⟨⟨_, _, _, _, _, _, _, _⟩, _, _, _, _⟩ := t
  have h0 := hr .pc; have h1 := hr .sp; have h2 := hr .ac; have h3 := hr .fl
  have h4 := hr .r1; have h5 := hr .r2; have h6 := hr .r3; have h7 := hr .r4
  simp only [State.reg, RegFile.get] at h0 h1 h2 h3 h4 h5 h6 h7
  simp_all

end Sys2Proof.Machine
end

