-- ==== Sys2Proof/Laws/Ops.lean ====
section
/-! SUPPORT. For each shared operation of the machine, what it can do, said once; the provers cite these instead of
unfolding. -/

namespace Sys2Proof.Machine

@[simp] theorem Reg.ofIndex_index (r : Reg) : Reg.ofIndex r.index = some r := by cases r <;> rfl

/-- An index word that names a register is that register's index. -/
theorem Reg.ofIndex_eq_some {i : Word} {r : Reg} (h : Reg.ofIndex i = some r) : i = r.index := by
  apply BitVec.eq_of_toNat_eq
  unfold Reg.ofIndex at h
  split at h <;> first | (cases h; assumption) | cases h

/-- The check of one register operand: the fault, or the rest of the rule with the register named (R96). -/
theorem checkReg_cases (s : State) (i : Word) (rest : Reg → StepResult) :
    (Reg.ofIndex i = none ∧ checkReg s i rest = .next (s.withFault (.registerIndexOutOfRange i))) ∨
    (∃ r : Reg, i = r.index ∧ checkReg s i rest = rest r) := by
  unfold checkReg
  cases h : Reg.ofIndex i with
  | none => exact .inl ⟨rfl, rfl⟩
  | some r => exact .inr ⟨r, Reg.ofIndex_eq_some h, rfl⟩

@[simp] theorem checkReg_index (s : State) (r : Reg) (rest : Reg → StepResult) :
    checkReg s r.index rest = rest r := by simp [checkReg]

/-- The check of two register operands: the first bad one in word order, or the rest of the rule (R96). -/
theorem checkRegs_cases (s : State) (i j : Word) (rest : Reg → Reg → StepResult) :
    (Reg.ofIndex i = none ∧ checkRegs s i j rest = .next (s.withFault (.registerIndexOutOfRange i))) ∨
    (∃ r : Reg, i = r.index ∧ Reg.ofIndex j = none ∧
      checkRegs s i j rest = .next (s.withFault (.registerIndexOutOfRange j))) ∨
    (∃ r q : Reg, i = r.index ∧ j = q.index ∧ checkRegs s i j rest = rest r q) := by
  unfold checkRegs
  rcases checkReg_cases s i (fun r => checkReg s j fun q => rest r q) with ⟨hn, h⟩ | ⟨r, hr, h⟩
  · exact .inl ⟨hn, h⟩
  · rcases checkReg_cases s j (fun q => rest r q) with ⟨hn, h'⟩ | ⟨q, hq, h'⟩
    · exact .inr (.inl ⟨r, hr, hn, h.trans h'⟩)
    · exact .inr (.inr ⟨r, q, hr, hq, h.trans h'⟩)

/-- The branch test of JumpNotEq reads the whole of ac (R132). -/
theorem branchTaken_iff (s : State) : branchTaken s = true ↔ s.reg .ac ≠ 1 := bne_iff_ne

/-- A read of the program answers a word exactly when it is below L (R51). -/
theorem State.fetch_ok_iff {s : State} {a w : Word} :
    s.fetch a = .ok w ↔ s.program[a.toNat]? = some w := by
  unfold State.fetch
  cases s.program[a.toNat]? <;> simp

/-- A read of the program that fails names the address read, which is at or past L (R51). -/
theorem State.fetch_error_iff {s : State} {a : Word} {f : Fault} :
    s.fetch a = .error f ↔ s.program.length ≤ a.toNat ∧ f = .programAddressOutOfRange a := by
  unfold State.fetch
  cases h : s.program[a.toNat]? with
  | none => rw [List.getElem?_eq_none_iff] at h; simp [h, eq_comm]
  | some w =>
    have := (List.getElem?_eq_some_iff.mp h).1
    simp [Nat.not_le.mpr this]

/-- Everything one step can do (R90, R37): no cycle outside Running; the fault of fetch or decode; or the meaning of
the decoded instruction on the state with pc advanced. -/
theorem step_cases (s : State) :
    (s.status ≠ .running ∧ step s = .next s) ∨
    (∃ f, s.status = .running ∧ s.fetchDecode = .error f ∧ step s = .next (s.withFault f)) ∨
    (∃ i, s.status = .running ∧ s.fetchDecode = .ok i ∧ step s = exec i (s.advancePc i)) := by
  unfold step
  cases hs : s.status with
  | running =>
    cases hf : s.fetchDecode with
    | error f => exact .inr (.inl ⟨f, rfl, rfl, rfl⟩)
    | ok i => exact .inr (.inr ⟨i, rfl, rfl, rfl⟩)
  | notRunning => exact .inl ⟨by simp, rfl⟩
  | halted => exact .inl ⟨by simp, rfl⟩
  | faulted f => exact .inl ⟨by simp, rfl⟩

/-- A cycle whose fetch and decode succeed is the meaning of the instruction on the state with pc advanced. -/
theorem step_of_ok {s : State} {i : Instr} (hr : s.status = .running) (hi : s.fetchDecode = .ok i) :
    step s = exec i (s.advancePc i) := by
  simp [step, hr, hi]

/-- A cycle whose fetch or decode fails raises that fault with every register unchanged. -/
theorem step_of_error {s : State} {f : Fault} (hr : s.status = .running) (hf : s.fetchDecode = .error f) :
    step s = .next (s.withFault f) := by
  simp [step, hr, hf, State.raise]

/-- The words placed for the host stand at their addresses. -/
theorem placeWords_get (p : List Word) (a : Nat) (ws : List Word) (k : Nat) (hk : k < ws.length) :
    (placeWords p a ws)[a + k]? = ws[k]? := by
  induction a generalizing p with
  | zero => cases p <;> simp [placeWords, List.getElem?_append_left hk]
  | succ a ih =>
    cases p <;> simpa [placeWords, Nat.add_right_comm a 1 k] using ih _

end Sys2Proof.Machine
end

