-- ==== Sys2Proof/Laws/PerInstr.lean ====
section
/-! SUPPORT. The per-instruction family: the shape of an instruction's encoding (spec 30_encoding.md R70, R71, R80). -/

namespace Sys2Proof.Laws.EncodingShape

/-- The encoding begins with the opcode word and has 1 + n words, between one and three. -/
def Statement (i : Instr) : Prop :=
  (encode i).head? = some i.opcode.toWord ∧ (encode i).length = i.size ∧ 1 ≤ i.size ∧ i.size ≤ 3

theorem halt : Statement .halt :=
  ⟨rfl, rfl, Nat.le_add_right 1 _, Nat.le_of_ble_eq_true (n := 1) (m := 3) rfl⟩
theorem setRegImm (dst imm : Word) : Statement (.setRegImm dst imm) :=
  ⟨rfl, rfl, Nat.le_add_right 1 _, Nat.le_refl 3⟩
theorem setRegReg (dst src : Word) : Statement (.setRegReg dst src) :=
  ⟨rfl, rfl, Nat.le_add_right 1 _, Nat.le_refl 3⟩
theorem addRegReg (a b : Word) : Statement (.addRegReg a b) :=
  ⟨rfl, rfl, Nat.le_add_right 1 _, Nat.le_refl 3⟩
theorem addRegImm (a imm : Word) : Statement (.addRegImm a imm) :=
  ⟨rfl, rfl, Nat.le_add_right 1 _, Nat.le_refl 3⟩
theorem cmpRegImm (reg imm : Word) : Statement (.cmpRegImm reg imm) :=
  ⟨rfl, rfl, Nat.le_add_right 1 _, Nat.le_refl 3⟩
theorem jumpEq (addr : Word) : Statement (.jumpEq addr) :=
  ⟨rfl, rfl, Nat.le_add_right 1 _, Nat.le_of_ble_eq_true (n := 2) (m := 3) rfl⟩
theorem jumpNotEq (addr : Word) : Statement (.jumpNotEq addr) :=
  ⟨rfl, rfl, Nat.le_add_right 1 _, Nat.le_of_ble_eq_true (n := 2) (m := 3) rfl⟩
theorem debugRegs : Statement .debugRegs :=
  ⟨rfl, rfl, Nat.le_add_right 1 _, Nat.le_of_ble_eq_true (n := 1) (m := 3) rfl⟩

end Sys2Proof.Laws.EncodingShape
end

