-- ==== Sys2Proof/Laws/Run.lean ====
section
/-! SUPPORT. Runs of many steps, from the host's `Core.run`. -/

namespace Sys2Proof.Machine

/-- A run whose first step answers a next state goes on from that state. -/
theorem run_succ_of_next {M : Host.Core} {s t : M.State} (k : Nat) (h : M.step s = .next t) :
    M.run (k + 1) s = M.run k t := by
  simp [Host.Core.run, h]

end Sys2Proof.Machine
end

