-- ==== Sys2Proof/Machine/Assembly.lean ====
section
/-! DEFINITION. The assembler notation in which the spec writes programs (30_encoding.md R84, decision D12). It is
text for a reader; no step of the machine uses it. -/

namespace Sys2Proof.Machine

/-- The mnemonic of an opcode (R79). -/
def mnemonicText : Opcode → String
  | .halt => "Halt"
  | .setRegImm => "SetRegImm"
  | .setRegReg => "SetRegReg"
  | .addRegReg => "AddRegReg"
  | .addRegImm => "AddRegImm"
  | .cmpRegImm => "CmpRegImm"
  | .jumpEq => "JumpEq"
  | .jumpNotEq => "JumpNotEq"
  | .debugRegs => "DebugRegs"

/-- An immediate, an address or a word in decimal (R84). -/
def wordText (w : Word) : String := Nat.repr w.toNat

/-- A register operand: its name, or `x<i>` for an index word that names no register (R84). -/
def regText (i : Word) : String :=
  match Reg.ofIndex i with
  | some r => r.label
  | none => "x" ++ wordText i

/-- The operands of an instruction, in the order of the words (R84, R73). -/
def operandTexts : Instr → List String
  | .halt => []
  | .setRegImm dst imm => [regText dst, wordText imm]
  | .setRegReg dst src => [regText dst, regText src]
  | .addRegReg a b => [regText a, regText b]
  | .addRegImm a imm => [regText a, wordText imm]
  | .cmpRegImm reg imm => [regText reg, wordText imm]
  | .jumpEq addr => [wordText addr]
  | .jumpNotEq addr => [wordText addr]
  | .debugRegs => []

/-- A line of a program: the address, the mnemonic, the operands and the encoding (R84). -/
def assemblyLine (address : Nat) (i : Instr) : String :=
  let operands := operandTexts i
  Nat.repr address ++ ": " ++ mnemonicText i.opcode
    ++ (if operands.isEmpty then "" else " " ++ String.intercalate ", " operands)
    ++ "    -- [" ++ String.intercalate ", " ((encode i).map wordText) ++ "]"

end Sys2Proof.Machine
end

