-- ==== Sys2Proof/Tests/Slice0.lean ====
section
/-! SUPPORT. The model's own tests. Expected results come from the spec: the encodings of 30_encoding.md R79 and R86,
the vectors V1 to V52 of 95_test_vectors.md, the notation example of R84. The witnesses at the end show, for each
statement with hypotheses, concrete states that meet them. -/

namespace Sys2Proof.Tests

open Sys2Proof.Machine

/-- A running core at `pc` with the program `p` and every other register 0. -/
def runningAt (pc : Word) (p : List Word) : State :=
  { regs := { RegFile.zero with pc := pc }, stack := [], status := .running, program := p, debug := [] }

/-- The next state of a step or a meaning. -/
def nextState : StepResult → Option State
  | .next t => some t
  | .fault _ => none
  | .refused _ => none

/-- The status and the registers pc, ac and r1 after one cycle. -/
def afterCycle (s : State) : Option (RunStatus × Word × Word × Word) :=
  (nextState (step s)).map fun t => (t.status, t.reg .pc, t.reg .ac, t.reg .r1)

/-! ### Well-formedness: each check refuses an ill-formed term (R77, R7) -/

theorem test_wf_accepts : Instr.wellFormed (.setRegReg 0 7) = true := by decide
theorem test_wf_setRegImm_dst : Instr.wellFormed (.setRegImm 8 5) = false := by decide
theorem test_wf_setRegReg_dst : Instr.wellFormed (.setRegReg 8 4) = false := by decide
theorem test_wf_setRegReg_src : Instr.wellFormed (.setRegReg 4 8) = false := by decide
theorem test_wf_addRegReg_a : Instr.wellFormed (.addRegReg 18446744073709551615 4) = false := by decide
theorem test_wf_addRegReg_b : Instr.wellFormed (.addRegReg 4 8) = false := by decide
theorem test_wf_addRegImm_a : Instr.wellFormed (.addRegImm 8 0) = false := by decide
theorem test_wf_cmpRegImm_reg : Instr.wellFormed (.cmpRegImm 9 0) = false := by decide
theorem test_wf_program_too_long : programWellFormed (List.replicate (2 ^ 64) 0) = false := by
  rw [programWellFormed, List.length_replicate]
  decide

/-! ### Decoding: words written out from R79 and R86, in the table's bit numbering -/

theorem test_decode_halt : decodeTableWord 64 0 = some .halt := by decide
theorem test_decode_setRegImm : decodeTableWord 192 (1 + 4 * 2 ^ 64 + 5 * 2 ^ 128) = some (.setRegImm 4 5) := by decide
theorem test_decode_setRegReg : decodeTableWord 192 (2 + 4 * 2 ^ 64 + 2 * 2 ^ 128) = some (.setRegReg 4 2) := by decide
theorem test_decode_addRegReg : decodeTableWord 192 (3 + 4 * 2 ^ 64 + 5 * 2 ^ 128) = some (.addRegReg 4 5) := by decide
theorem test_decode_addRegImm : decodeTableWord 192 (4 + 6 * 2 ^ 64 + 1 * 2 ^ 128) = some (.addRegImm 6 1) := by decide
theorem test_decode_cmpRegImm : decodeTableWord 192 (5 + 6 * 2 ^ 64 + 55 * 2 ^ 128) = some (.cmpRegImm 6 55) := by decide
theorem test_decode_jumpEq : decodeTableWord 128 (6 + 9 * 2 ^ 64) = some (.jumpEq 9) := by decide
theorem test_decode_jumpNotEq : decodeTableWord 128 (7 + 9 * 2 ^ 64) = some (.jumpNotEq 9) := by decide
theorem test_decode_debugRegs : decodeTableWord 64 8 = some .debugRegs := by decide
theorem test_decode_short_bits_read_zero : decodeTableWord 64 1 = some (.setRegImm 0 0) := by decide
theorem test_decode_unknown : decode [99] = .error (.unknownOpcode 99) := by rfl
theorem test_decode_missing : decode [1, 4] = .error (.missingWord 2) := by rfl
theorem test_opcodes_are_nine :
    (List.range 12).map (fun k => (Opcode.ofWord (BitVec.ofNat 64 k)).isSome)
      = List.replicate Config.numOpcodes true ++ [false, false, false] := by decide

/-! ### Fetch and decode faults: V4, V5, V7, V10 -/

theorem test_V4 : afterCycle (runningAt 0 [4294967297, 4, 5]) = some (.faulted (.unknownOpcode 4294967297), 0, 0, 0) := by
  decide
theorem test_V5 : afterCycle (runningAt 0 []) = some (.faulted (.programAddressOutOfRange 0), 0, 0, 0) := by decide
theorem test_V7 : afterCycle (runningAt 0 [1, 4]) = some (.faulted (.programAddressOutOfRange 2), 0, 0, 0) := by decide
theorem test_V10 : afterCycle (runningAt 18446744073709551615 [0])
    = some (.faulted (.programAddressOutOfRange 18446744073709551615), 18446744073709551615, 0, 0) := by decide

/-! ### One cycle of each instruction -/

theorem test_V11_setRegImm : afterCycle (runningAt 0 [1, 4, 5]) = some (.running, 3, 0, 5) := by decide
theorem test_V15_setRegImm : afterCycle (runningAt 0 [1, 18446744073709551615, 5])
    = some (.faulted (.registerIndexOutOfRange 18446744073709551615), 3, 0, 0) := by decide
theorem test_V19_setRegReg : afterCycle (runningAt 5 [0, 0, 0, 0, 0, 2, 0, 0]) = some (.running, 8, 0, 0) := by decide
theorem test_V21_setRegReg : afterCycle (runningAt 0 [2, 9, 8])
    = some (.faulted (.registerIndexOutOfRange 9), 3, 0, 0) := by decide
theorem test_V25_addRegReg :
    afterCycle (((runningAt 0 [3, 4, 5]).setReg .r1 18446744073709551615).setReg .r2 18446744073709551615)
      = some (.running, 3, 18446744073709551614, 18446744073709551615) := by decide
theorem test_V28_addRegReg : afterCycle ((runningAt 6 [0, 0, 0, 0, 0, 0, 3, 0, 4]).setReg .r1 1)
    = some (.running, 9, 10, 1) := by decide
theorem test_V31_addRegImm : afterCycle ((runningAt 0 [4, 4, 18446744073709551615]).setReg .r1 5)
    = some (.running, 3, 4, 5) := by decide
theorem test_V34_addRegImm : afterCycle (runningAt 0 [4, 8, 0])
    = some (.faulted (.registerIndexOutOfRange 8), 3, 0, 0) := by decide
theorem test_V38_cmpRegImm : afterCycle ((runningAt 0 [5, 4, 1]).setReg .r1 18446744073709551615)
    = some (.running, 3, 0, 18446744073709551615) := by decide
theorem test_V37_cmpRegImm : afterCycle ((runningAt 0 [5, 4, 3]).setReg .r1 1) = some (.running, 3, 2, 1) := by decide
theorem test_V44_jumpNotEq : afterCycle ((runningAt 27 (List.replicate 27 0 ++ [7, 9])).setReg .ac 1)
    = some (.running, 29, 1, 0) := by decide
theorem test_V46_jumpNotEq : afterCycle ((runningAt 0 [7, 3]).setReg .ac 12) = some (.running, 3, 12, 0) := by decide
theorem test_V49_jumpEq : afterCycle ((runningAt 0 [6, 0]).setReg .ac 1)
    = some (.faulted (.unsupportedOpcode 6), 2, 1, 0) := by decide
theorem test_V50_jumpEq : afterCycle (runningAt 0 [6])
    = some (.faulted (.programAddressOutOfRange 1), 0, 0, 0) := by decide
theorem test_V51_debugRegs :
    (nextState (step (((runningAt 4 [0, 0, 0, 0, 8]).setReg .ac 3).setReg .r2 2))).map
      (fun t => (t.reg .pc, t.debug)) = some (5, [⟨5, 0, 3, 0, 0, 2, 0, 0⟩]) := by decide
theorem test_V52_halt : afterCycle (runningAt 7 [9, 9, 9, 9, 9, 9, 9, 0]) = some (.halted, 8, 0, 0) := by decide

/-! ### The host's moves -/

theorem test_no_run_after_reset : nextState (step State.reset) = some State.reset := by decide
theorem test_placed_word_runs :
    (nextState (step (State.reset.withFetchWord 192 (1 + 4 * 2 ^ 64 + 5 * 2 ^ 128)))).map
      (fun t => (t.status, t.reg .pc, t.reg .r1)) = some (.running, 3, 5) := by decide
theorem test_start_run : (State.reset.startRun [0]).map (fun s => (nextState (step s)).map State.outcome)
    = some (some (some .ok)) := by decide
theorem test_notation : assemblyLine 0 (.setRegImm 4 5) = "0: SetRegImm r1, 5    -- [1, 4, 5]" := by decide

/-! ### Witnesses: states that meet the hypotheses of the statements -/

theorem witness_RunStartsFromTheHeldState :
    State.reset.status ≠ .running ∧ (List.replicate (2 ^ 64 - 1) (0 : Word)).length ≤ 2 ^ 64 - 1 ∧
    (State.reset.startRun [0]).isSome = true := by
  refine ⟨by decide, ?_, by decide⟩
  exact Nat.le_of_eq List.length_replicate

theorem witness_NoCycleOutsideRunning :
    State.reset.status ≠ .running ∧ ({ runningAt 1 [0] with status := .halted } : State).status ≠ .running := by decide

theorem witness_EndedRunStaysEnded :
    ({ runningAt 0 [99] with status := .faulted (.unknownOpcode 99) } : State).status ≠ .running := by decide

theorem witness_WholeWordSelectsOpcode : 9 ≤ (9 : Word).toNat ∧ 9 ≤ (18446744073709551615 : Word).toNat := by decide

theorem witness_FetchReadsTheProgram :
    (2 : Word).toNat < (runningAt 0 [1, 4, 5]).program.length ∧
    (runningAt 0 [1, 4, 5]).program.length ≤ (3 : Word).toNat := by decide

theorem witness_StepRunsTheDecodedInstruction :
    (runningAt 1 [0, 1, 4, 5]).status = .running ∧ (runningAt 1 [0, 1, 4, 5]).programFits ∧
    decode ((runningAt 1 [0, 1, 4, 5]).program.drop ((runningAt 1 [0, 1, 4, 5]).reg .pc).toNat)
      = .ok (.setRegImm 4 5) := ⟨rfl, by decide, rfl⟩

theorem witness_LaidOutInstructionRuns :
    (runningAt 3 [1, 4, 5, 7, 9, 0]).status = .running ∧ (runningAt 3 [1, 4, 5, 7, 9, 0]).programFits ∧
    (runningAt 3 [1, 4, 5, 7, 9, 0]).program
      = [Instr.setRegImm 4 5].flatMap encode ++ encode (.jumpNotEq 9) ++ [Instr.halt].flatMap encode ∧
    ((runningAt 3 [1, 4, 5, 7, 9, 0]).reg .pc).toNat = ([Instr.setRegImm 4 5].flatMap encode).length := by decide

theorem witness_DecodeAdvancesPcWithoutWrapping :
    (runningAt 0 [1, 4, 5]).status = .running ∧ (runningAt 0 [1, 4, 5]).programFits ∧
    (runningAt 0 [1, 4, 5]).fetchDecode = .ok (.setRegImm 4 5) := ⟨rfl, by decide, rfl⟩

theorem witness_FetchPastTheEndFaults :
    (runningAt 1 [0]).status = .running ∧ (runningAt 1 [0]).program.length ≤ ((runningAt 1 [0]).reg .pc).toNat := by
  decide

theorem witness_UnknownOpcodeFaults :
    (runningAt 0 [9]).status = .running ∧ (runningAt 0 [9]).fetch ((runningAt 0 [9]).reg .pc) = .ok 9 ∧
    9 ≤ (9 : Word).toNat := ⟨rfl, rfl, by decide⟩

/-- The program that ends just before the k-th operand word of an instruction with opcode `op`. -/
def cutBefore (op : Opcode) (k : Nat) : State := runningAt 0 (op.toWord :: List.replicate (k - 1) 0)

/-- `cutBefore op k` meets every hypothesis of `OperandFetchFaults op` at the operand `k`. -/
def MeetsOperandFetch (op : Opcode) (k : Nat) : Prop :=
  (cutBefore op k).status = .running ∧ (cutBefore op k).programFits ∧
  (cutBefore op k).fetch ((cutBefore op k).reg .pc) = .ok op.toWord ∧ 1 ≤ k ∧ k ≤ op.operandCount ∧
  (cutBefore op k).program.length = ((cutBefore op k).reg .pc).toNat + k

/-- Both operands of every opcode, for MissingOperandFaults and for the last clause of each instruction's statement. -/
theorem witness_OperandFetchFaults :
    (MeetsOperandFetch .setRegImm 1 ∧ MeetsOperandFetch .setRegImm 2) ∧
    (MeetsOperandFetch .setRegReg 1 ∧ MeetsOperandFetch .setRegReg 2) ∧
    (MeetsOperandFetch .addRegReg 1 ∧ MeetsOperandFetch .addRegReg 2) ∧
    (MeetsOperandFetch .addRegImm 1 ∧ MeetsOperandFetch .addRegImm 2) ∧
    (MeetsOperandFetch .cmpRegImm 1 ∧ MeetsOperandFetch .cmpRegImm 2) ∧
    MeetsOperandFetch .jumpEq 1 ∧ MeetsOperandFetch .jumpNotEq 1 := by
  have first : ∀ op : Opcode, 1 ≤ op.operandCount → MeetsOperandFetch op 1 := fun op h =>
    ⟨rfl, (show 1 ≤ 2 ^ 64 - 1 by decide), rfl, by decide, h, rfl⟩
  have second : ∀ op : Opcode, 2 ≤ op.operandCount → MeetsOperandFetch op 2 := fun op h =>
    ⟨rfl, (show 2 ≤ 2 ^ 64 - 1 by decide), rfl, by decide, h, rfl⟩
  exact ⟨⟨first _ (by decide), second _ (by decide)⟩, ⟨first _ (by decide), second _ (by decide)⟩,
    ⟨first _ (by decide), second _ (by decide)⟩, ⟨first _ (by decide), second _ (by decide)⟩,
    ⟨first _ (by decide), second _ (by decide)⟩, first _ (by decide), first _ (by decide)⟩

theorem witness_NextPcFollowsTheTable :
    (runningAt 0 [1, 0, 7]).status = .running ∧ (nextState (step (runningAt 0 [1, 0, 7]))).isSome = true := by decide

theorem witness_FirstFaultInPriorityOrder :
    (runningAt 0 [2, 9, 8]).status = .running ∧ (runningAt 0 [2, 9, 8]).programFits := by decide

theorem witness_FaultEndsTheRun_decode :
    (nextState (step (runningAt 0 [99]))).map State.status = some (.faulted (.unknownOpcode 99)) ∧
    (nextState (step (runningAt 1 [0]))).map State.status = some (.faulted (.programAddressOutOfRange 1)) := by decide

theorem witness_FaultEndsTheRun_execute :
    (nextState (step (runningAt 0 [1, 8, 5]))).map State.status = some (.faulted (.registerIndexOutOfRange 8)) ∧
    (nextState (step (runningAt 0 [6, 0]))).map State.status = some (.faulted (.unsupportedOpcode 6)) := by decide

theorem witness_ReadOfPcSeesTheAdvancedPc :
    (runningAt 0 [2, 4, 0]).fetchDecode = .ok (.setRegReg Reg.r1.index 0) ∧
    (runningAt 0 [3, 0, 0]).fetchDecode = .ok (.addRegReg 0 0) ∧
    (runningAt 0 [3, 0, 4]).fetchDecode = .ok (.addRegReg 0 Reg.r1.index) ∧ Reg.r1 ≠ .pc ∧
    (runningAt 0 [3, 4, 0]).fetchDecode = .ok (.addRegReg Reg.r1.index 0) ∧
    (runningAt 0 [4, 0, 7]).fetchDecode = .ok (.addRegImm 0 7) ∧
    (runningAt 0 [5, 0, 3]).fetchDecode = .ok (.cmpRegImm 0 3) ∧
    (runningAt 0 [5, 0, 3]).status = .running := ⟨rfl, rfl, rfl, by decide, rfl, rfl, rfl, rfl⟩

theorem witness_BadRegisterIndexFaults :
    (Instr.setRegReg 9 8).regOperands.find? (fun o => decide (8 ≤ o.toNat)) = some 9 ∧
    (Instr.addRegReg 7 8).regOperands.find? (fun o => decide (8 ≤ o.toNat)) = some 8 := by decide

theorem witness_OnlyHaltStops :
    Instr.wellFormed .halt = true ∧ Instr.opcode .halt ≠ .jumpEq ∧
    Instr.wellFormed (.setRegReg 0 7) = true ∧ Instr.opcode (.setRegReg 0 7) ≠ .jumpEq := by decide

theorem witness_ExecuteWritesAtMostOneRegister :
    (nextState (exec (.setRegImm 4 5) (runningAt 3 []))).isSome = true ∧
    (nextState (exec (.jumpEq 0) (runningAt 3 []))).isSome = true := by decide

theorem witness_UnnamedRegisterHasNoEffect :
    (runningAt 0 [1, 4, 5]).status = .running ∧ (runningAt 0 [1, 4, 5]).fetchDecode = .ok (.setRegImm 4 5) ∧
    Instr.setRegImm 4 5 ≠ .debugRegs ∧ Reg.sp ≠ .pc ∧ Reg.sp ≠ .ac ∧ Reg.sp.index ∉ (Instr.setRegImm 4 5).regOperands ∧
    (nextState (step (runningAt 0 [1, 4, 5]))).isSome = true :=
  ⟨rfl, rfl, by decide, by decide, by decide, by decide, by decide⟩

/-- A register operand of 8 or more, at both ends of its range: for the fault clauses of SetRegImm, SetRegReg,
AddRegReg, AddRegImm and CmpRegImm. -/
theorem witness_bad_operands_at_eight : 8 ≤ (8 : Word).toNat ∧ 8 ≤ (18446744073709551615 : Word).toNat := by decide

theorem witness_CompareIsUnsignedThreeWay :
    (3 : Word).toNat < (5 : Word).toNat ∧ (3 : Word).toNat = (3 : Word).toNat ∧ (1 : Word).toNat < (3 : Word).toNat := by
  decide

theorem witness_CmpRegImmWritesTheConditionCode :
    (3 : Word).toNat < (((runningAt 3 []).setReg .r1 5).reg .r1).toNat ∧
    (((runningAt 3 []).setReg .r1 3).reg .r1).toNat = (3 : Word).toNat ∧
    (((runningAt 3 []).setReg .r1 1).reg .r1).toNat < (3 : Word).toNat := by decide

theorem witness_JumpNotEqBranchesUnlessAcIsOne :
    (runningAt 2 []).reg .ac ≠ 1 ∧ ((runningAt 2 []).setReg .ac 1).reg .ac = 1 := by decide

theorem witness_JumpEqIsUnsupported :
    (runningAt 0 [6, 0]).status = .running ∧ (runningAt 0 [6, 0]).fetchDecode = .ok (.jumpEq 0) := ⟨rfl, rfl⟩

theorem witness_FallThroughLeavesAcOne :
    ((runningAt 0 [7, 9]).setReg .ac 1).status = .running ∧
    ((runningAt 0 [7, 9]).setReg .ac 1).fetchDecode = .ok (.jumpNotEq 9) ∧
    (nextState (step ((runningAt 0 [7, 9]).setReg .ac 1))).map (State.reg · .pc) = some 2 ∧ (9 : Word) ≠ 0 + 2 :=
  ⟨rfl, rfl, by decide, by decide⟩

theorem witness_JumpToItselfNeverEnds :
    (runningAt 0 [7, 0]).status = .running ∧ (runningAt 0 [7, 0]).fetch ((runningAt 0 [7, 0]).reg .pc) = .ok 7 ∧
    (runningAt 0 [7, 0]).fetch ((runningAt 0 [7, 0]).reg .pc + 1) = .ok ((runningAt 0 [7, 0]).reg .pc) ∧
    (runningAt 0 [7, 0]).reg .ac ≠ 1 := ⟨rfl, rfl, rfl, by decide⟩

theorem witness_IdiomsDoWhatTheyAreUsedFor_one_cycle :
    (runningAt 0 [1, 0, 7]).fetchDecode = .ok (.setRegImm Reg.pc.index 7) ∧
    (runningAt 0 [2, 4, 2]).fetchDecode = .ok (.setRegReg Reg.r1.index Reg.ac.index) ∧
    (runningAt 0 [2, 4, 0]).fetchDecode = .ok (.setRegReg Reg.r1.index Reg.pc.index) ∧
    (runningAt 0 [2, 4, 0]).status = .running := ⟨rfl, rfl, rfl, rfl⟩

theorem witness_IdiomsDoWhatTheyAreUsedFor_increment :
    ∃ t, Reg.r1 ≠ .pc ∧ (runningAt 0 [4, 4, 1, 2, 4, 2]).status = .running ∧
      (runningAt 0 [4, 4, 1, 2, 4, 2]).fetchDecode = .ok (.addRegImm Reg.r1.index 1) ∧
      step (runningAt 0 [4, 4, 1, 2, 4, 2]) = .next t ∧
      t.fetchDecode = .ok (.setRegReg Reg.r1.index Reg.ac.index) := ⟨_, by decide, rfl, rfl, rfl, rfl⟩

theorem witness_IdiomsDoWhatTheyAreUsedFor_decrement :
    ∃ t, (runningAt 0 [4, 4, 0xFFFFFFFFFFFFFFFF, 2, 4, 2]).fetchDecode
        = .ok (.addRegImm Reg.r1.index 0xFFFFFFFFFFFFFFFF) ∧
      step (runningAt 0 [4, 4, 0xFFFFFFFFFFFFFFFF, 2, 4, 2]) = .next t ∧
      t.fetchDecode = .ok (.setRegReg Reg.r1.index Reg.ac.index) := ⟨_, rfl, rfl, rfl⟩

theorem witness_DebugRegsEmitsTheRegisters :
    (runningAt 0 [8]).status = .running ∧ (runningAt 0 [8]).fetch ((runningAt 0 [8]).reg .pc) = .ok 8 := ⟨rfl, rfl⟩

theorem witness_HaltStopsTheRun :
    (runningAt 0 [0]).status = .running ∧ (runningAt 0 [0]).fetch ((runningAt 0 [0]).reg .pc) = .ok 0 ∧
    (nextState (step (runningAt 0 [0]))).map State.status = some .halted := ⟨rfl, rfl, by decide⟩

theorem witness_DebugStreamHasOneEventPerDebugRegs :
    (nextState (step (runningAt 0 [8]))).isSome = true ∧ (runningAt 0 [8]).fetch ((runningAt 0 [8]).reg .pc) = .ok 8 ∧
    (nextState (step (runningAt 0 [0]))).isSome = true ∧ (runningAt 0 [0]).fetch ((runningAt 0 [0]).reg .pc) ≠ .ok 8 :=
  ⟨by decide, rfl, by decide, fun h => absurd (Except.ok.inj (show (Except.ok 0 : Except Fault Word) = .ok 8 from h)) (by decide)⟩

/-- For the statements whose only hypothesis is that the step answers a next state: NoStepWritesTheProgram,
StackIsReachedByNoInstruction, DebugStreamIsWriteOnly. -/
theorem witness_step_answers_next : (nextState (step (runningAt 0 [8]))).isSome = true := by decide

theorem witness_CycleReadsOnlyTheInstructionsWords :
    (runningAt 0 [7, 9, 0]).status = .running ∧ (runningAt 0 [7, 9, 0]).fetchDecode = .ok (.jumpNotEq 9) ∧
    (∀ k, k < (Instr.jumpNotEq 9).size →
      ({ runningAt 0 [7, 9, 0] with program := [7, 9, 8, 8] } : State).fetch
          ((runningAt 0 [7, 9, 0]).reg .pc + BitVec.ofNat 64 k)
        = (runningAt 0 [7, 9, 0]).fetch ((runningAt 0 [7, 9, 0]).reg .pc + BitVec.ofNat 64 k)) ∧
    (nextState (step (runningAt 0 [7, 9, 0]))).isSome = true := by
  refine ⟨rfl, rfl, fun k hk => ?_, by decide⟩
  match k, hk with
  | 0, _ => rfl
  | 1, _ => rfl

/-- A running core that has emitted one event has the invariant, and its step answers a next state: the hypotheses of
StepKeepsTheInvariant and EveryRunKeepsTheInvariant. -/
theorem witness_StepKeepsTheInvariant :
    ({ runningAt 1 [8, 8] with debug := [⟨1, 0, 0, 0, 0, 0, 0, 0⟩] } : State).Inv ∧
    (nextState (step { runningAt 1 [8, 8] with debug := [⟨1, 0, 0, 0, 0, 0, 0, 0⟩] })).isSome = true := by
  refine ⟨⟨rfl, fun a ha => ?_, by decide, fun f hf => (by cases hf), fun hh => (by cases hh), by decide⟩, by decide⟩
  simp [State.memRead, ha, runningAt, Memory.read, Memory.unlisted]

/-- A faulted and a halted state with the invariant: its fault and halt clauses are met by states, not only empty. -/
theorem witness_invariant_clauses :
    FaultSound { runningAt 0 [99] with status := .faulted (.unknownOpcode 99) } (.unknownOpcode 99) ∧
    FaultSound { runningAt 2 [6, 0] with status := .faulted (.unsupportedOpcode 6) } (.unsupportedOpcode 6) ∧
    FaultSound { runningAt 3 [1, 8, 5] with status := .faulted (.registerIndexOutOfRange 8) } (.registerIndexOutOfRange 8) ∧
    FaultSound { runningAt 1 [0] with status := .faulted (.programAddressOutOfRange 1) } (.programAddressOutOfRange 1) :=
  ⟨⟨by decide, rfl⟩, ⟨rfl, by decide, by decide, rfl⟩, ⟨by decide, by decide, by decide, .inl rfl⟩, ⟨by decide, .inl rfl⟩⟩

theorem witness_StartRunKeepsTheInvariant :
    ({ runningAt 1 [0] with status := .halted } : State).Inv ∧
    (({ runningAt 1 [0] with status := .halted } : State).startRun [8]).isSome = true := by
  refine ⟨⟨rfl, fun a ha => ?_, by decide, fun f hf => (by cases hf), fun _ => ⟨by decide, by decide, rfl⟩, by decide⟩, by decide⟩
  simp [State.memRead, ha, runningAt, Memory.read, Memory.unlisted]

theorem witness_PlacedInstructionRunsNext :
    (State.reset.reg .pc).toNat + 3 ≤ 2 ^ 64 - 1 ∧ decodeTableWord 64 8 = some .debugRegs := by decide

end Sys2Proof.Tests
end

section
/-! The decoder and the encoder: what a decode reads, when it fails, and the shape of the words it reads
(spec 30_encoding.md R70 to R80, 40_cycle.md R92, R93). -/

namespace Sys2Proof

/-- The per-instruction encoding facts, gathered over the instruction. -/
theorem encodingShape (i : Instr) : Laws.EncodingShape.Statement i :=
  match i with
  | .halt => Laws.EncodingShape.halt
  | .setRegImm dst imm => Laws.EncodingShape.setRegImm dst imm
  | .setRegReg dst src => Laws.EncodingShape.setRegReg dst src
  | .addRegReg a b => Laws.EncodingShape.addRegReg a b
  | .addRegImm a imm => Laws.EncodingShape.addRegImm a imm
  | .cmpRegImm reg imm => Laws.EncodingShape.cmpRegImm reg imm
  | .jumpEq addr => Laws.EncodingShape.jumpEq addr
  | .jumpNotEq addr => Laws.EncodingShape.jumpNotEq addr
  | .debugRegs => Laws.EncodingShape.debugRegs

@[simp] theorem encode_length (i : Instr) : (encode i).length = i.size :=
  let ⟨_, hlength, _, _⟩ := encodingShape i; hlength

theorem Instr.one_le_size (i : Instr) : 1 ≤ i.size :=
  let ⟨_, _, hpos, _⟩ := encodingShape i; hpos

theorem Instr.size_le_three (i : Instr) : i.size ≤ 3 :=
  let ⟨_, _, _, hle⟩ := encodingShape i; hle

theorem encode_getElem?_zero (i : Instr) : (encode i)[0]? = some i.opcode.toWord :=
  List.head?_eq_getElem? ▸ (encodingShape i).1

/-- An offset at which the encoding holds a word is inside the instruction. -/
theorem lt_size_of_encode_getElem? {i : Instr} {k : Nat} {w : Word} (h : (encode i)[k]? = some w) : k < i.size := by
  rw [← encode_length]
  exact (List.getElem?_eq_some_iff.mp h).1

/-- A register operand stands at offset 1 or 2 of an instruction of three words (R71, R74). -/
theorem encode_of_mem_regOperands {i : Instr} {w : Word} (h : w ∈ i.regOperands) :
    i.size = 3 ∧ ((encode i)[1]? = some w ∨ (encode i)[2]? = some w) := by
  cases i with
  | halt | jumpEq | jumpNotEq | debugRegs => cases h
  | setRegImm | addRegImm | cmpRegImm =>
    obtain rfl := List.mem_singleton.mp h
    exact ⟨rfl, .inl rfl⟩
  | setRegReg | addRegReg =>
    refine ⟨rfl, ?_⟩
    rcases List.mem_pair.mp h with rfl | rfl
    · exact .inl rfl
    · exact .inr rfl

/-- Only a word from 9 up is no opcode (R75, R92). -/
theorem Opcode.nine_le_of_ofWord_eq_none {w : Word} (h : Opcode.ofWord w = none) : 9 ≤ w.toNat := by
  by_contra hlt
  have hle : w.toNat ≤ 8 := by omega
  unfold Opcode.ofWord at h
  interval_cases w.toNat <;> simp at h

theorem readOne_error {ε : Type} {read : Nat → Except ε Word} {make : Word → Instr} {e : ε}
    (h : readOne read make = .error e) : read 1 = .error e := by
  unfold readOne at h
  split at h
  · cases h; assumption
  · cases h

theorem readTwo_error {ε : Type} {read : Nat → Except ε Word} {make : Word → Word → Instr} {e : ε}
    (h : readTwo read make = .error e) : read 1 = .error e ∨ read 2 = .error e := by
  unfold readTwo at h
  split at h
  · cases h; exact .inl ‹_›
  · split at h
    · cases h; exact .inr ‹_›
    · cases h

/-- An operand fetch that fails has failed at one of the opcode's own operand words (R93). -/
theorem decodeOperands_error {ε : Type} {read : Nat → Except ε Word} {op : Opcode} {e : ε}
    (h : decodeOperands read op = .error e) : ∃ k, 1 ≤ k ∧ k ≤ op.operandCount ∧ read k = .error e := by
  cases op with
  | halt | debugRegs => cases h
  | jumpEq | jumpNotEq => exact ⟨1, Nat.le_refl 1, Nat.le_refl 1, readOne_error h⟩
  | setRegImm | setRegReg | addRegReg | addRegImm | cmpRegImm =>
    rcases readTwo_error h with h1 | h2
    · exact ⟨1, Nat.le_refl 1, Nat.le_succ 1, h1⟩
    · exact ⟨2, Nat.le_succ 1, Nat.le_refl 2, h2⟩

theorem decodeFrom_of_opcode {ε : Type} {read : Nat → Except ε Word} {unknown : Word → ε} {op : Opcode}
    (h : read 0 = .ok op.toWord) : decodeFrom read unknown = decodeOperands read op := by
  simp [decodeFrom, h]

/-- Reading the words of an instruction at their offsets decodes to that instruction. -/
theorem decodeFrom_of_encode {ε : Type} {read : Nat → Except ε Word} {unknown : Word → ε} {i : Instr}
    (h : ∀ k w, (encode i)[k]? = some w → read k = .ok w) : decodeFrom read unknown = .ok i := by
  rw [decodeFrom_of_opcode (h 0 _ (encode_getElem?_zero i))]
  cases i with
  | halt | debugRegs => rfl
  | jumpEq | jumpNotEq => simp [Instr.opcode, decodeOperands, readOne, h 1 _ rfl]
  | setRegImm | setRegReg | addRegReg | addRegImm | cmpRegImm =>
    simp [Instr.opcode, decodeOperands, readTwo, h 1 _ rfl, h 2 _ rfl]

/-- A decode answers an instruction exactly when the words read are the instruction's words. -/
theorem decodeFrom_ok_iff {ε : Type} {read : Nat → Except ε Word} {unknown : Word → ε} {i : Instr} :
    decodeFrom read unknown = .ok i ↔ ∀ k w, (encode i)[k]? = some w → read k = .ok w := by
  refine ⟨fun h k w hw => ?_, decodeFrom_of_encode⟩
  obtain ⟨w', hw', hread⟩ := decodeFrom_ok h k (lt_size_of_encode_getElem? hw)
  rwa [Option.some.inj (hw.symm.trans hw')]

theorem readWord_ok_iff {ws : List Word} {k : Nat} {w : Word} : readWord ws k = .ok w ↔ ws[k]? = some w := by
  unfold readWord
  cases ws[k]? <;> simp

theorem decodeTableWord_eq_some {nbits w : Nat} {i : Instr} (h : decodeTableWord nbits w = some i) :
    decode (tableWords nbits w) = .ok i := by
  unfold decodeTableWord at h
  split at h
  · cases h; assumption
  · cases h

end Sys2Proof
end

section
/-! Fetch and decode at pc, and the PC advance (spec 40_cycle.md R90 to R94, R100): where the words of a decoded
instruction stand, and that no address of it wraps. -/

namespace Sys2Proof.Machine

theorem toNat_add_ofNat_of_lt {a : Word} {k : Nat} (h : a.toNat + k < 2 ^ 64) :
    (a + BitVec.ofNat 64 k).toNat = a.toNat + k := by
  rw [BitVec.toNat_add, BitVec.toNat_ofNat]
  omega

/-- A cycle decodes an instruction exactly when its words stand at pc, pc + 1, ... -/
theorem State.fetchDecode_ok_iff {s : State} {i : Instr} :
    s.fetchDecode = .ok i ↔
      ∀ k w, (encode i)[k]? = some w → s.fetch (s.reg .pc + BitVec.ofNat 64 k) = .ok w := decodeFrom_ok_iff

/-- The word at pc is the opcode word of the instruction decoded there. -/
theorem State.fetch_pc_of_fetchDecode {s : State} {i : Instr} (h : s.fetchDecode = .ok i) :
    s.fetch (s.reg .pc) = .ok i.opcode.toWord := by
  simpa using State.fetchDecode_ok_iff.mp h 0 _ (encode_getElem?_zero i)

theorem State.fetchDecode_of_fetch_debugRegs {s : State} (h : s.fetch (s.reg .pc) = .ok Opcode.debugRegs.toWord) :
    s.fetchDecode = .ok .debugRegs :=
  decodeFrom_of_opcode (op := .debugRegs) (by simpa using h)

/-- A register other than pc plays no part in fetch and decode. -/
theorem State.fetchDecode_setReg {s : State} {q : Reg} (v : Word) (h : q ≠ .pc) :
    (s.setReg q v).fetchDecode = s.fetchDecode := by
  simp only [State.fetchDecode, State.setReg_fetch, State.reg_setReg_other s v h.symm]

/-- The faults of fetch and decode, each with its cause (R91 to R93, R161, R162). -/
theorem State.fetchDecode_error {s : State} {f : Fault} (h : s.fetchDecode = .error f) :
    (∃ w, f = .unknownOpcode w ∧ 9 ≤ w.toNat ∧ s.fetch (s.reg .pc) = .ok w) ∨
    (∃ k, k ≤ 2 ∧ f = .programAddressOutOfRange (s.reg .pc + BitVec.ofNat 64 k) ∧
      s.program.length ≤ (s.reg .pc + BitVec.ofNat 64 k).toNat) := by
  rcases decodeFrom_cases (fun k => s.fetch (s.reg .pc + BitVec.ofNat 64 k)) .unknownOpcode with
    ⟨e, h0, he⟩ | ⟨w, h0, hw, he⟩ | ⟨op, h0, he⟩
  · obtain rfl : e = f := Except.error.inj (he.symm.trans h)
    obtain ⟨hlen, hf⟩ := State.fetch_error_iff.mp h0
    exact .inr ⟨0, Nat.zero_le 2, hf, hlen⟩
  · obtain rfl : .unknownOpcode w = f := Except.error.inj (he.symm.trans h)
    exact .inl ⟨w, rfl, Opcode.nine_le_of_ofWord_eq_none hw, by simpa using h0⟩
  · obtain ⟨k, _, hk, hread⟩ := decodeOperands_error (he.symm.trans h)
    obtain ⟨hlen, hf⟩ := State.fetch_error_iff.mp hread
    have hcount : op.operandCount ≤ 2 := by cases op <;> decide
    exact .inr ⟨k, hk.trans hcount, hf, hlen⟩

/-- A decoded instruction lies inside a program of at most `2^64 - 1` words, so the PC advance is an ordinary sum
of at most L (R94, R100). Each word read shows that the next address has not wrapped. -/
theorem State.pc_add_size_le {s : State} {i : Instr} (hfit : s.programFits) (hi : s.fetchDecode = .ok i) :
    (s.reg .pc).toNat + i.size ≤ s.program.length := by
  have hmax : s.program.length ≤ 2 ^ 64 - 1 := hfit
  have hread : ∀ k, k < i.size → (s.reg .pc + BitVec.ofNat 64 k).toNat < s.program.length := fun k hk => by
    have hw : (encode i)[k]? = some ((encode i)[k]'(by simpa using hk)) := List.getElem?_eq_getElem _
    exact (List.getElem?_eq_some_iff.mp (State.fetch_ok_iff.mp (State.fetchDecode_ok_iff.mp hi k _ hw))).1
  have hin : ∀ k, k < i.size → (s.reg .pc).toNat + k < s.program.length := by
    intro k
    induction k with
    | zero => intro hk; simpa using hread 0 hk
    | succ k ih =>
      intro hk
      have hprev := ih (by omega)
      have hnext := hread (k + 1) hk
      rwa [toNat_add_ofNat_of_lt (by omega)] at hnext
  have hlast := hin (i.size - 1) (by have := i.one_le_size; omega)
  have := i.one_le_size
  omega

theorem State.advancePc_pc_toNat {s : State} {i : Instr} (hfit : s.programFits) (hi : s.fetchDecode = .ok i) :
    ((s.advancePc i).reg .pc).toNat = (s.reg .pc).toNat + i.size := by
  have hmax : s.program.length ≤ 2 ^ 64 - 1 := hfit
  have := State.pc_add_size_le hfit hi
  exact toNat_add_ofNat_of_lt (by omega)

/-- The words of the decoded instruction, found again by counting back from the advanced pc. -/
theorem State.fetch_before_advancedPc {s : State} {i : Instr} (hi : s.fetchDecode = .ok i) {k j : Nat} {w : Word}
    (hw : (encode i)[k]? = some w) (hj : k + j = i.size) :
    (s.advancePc i).fetch ((s.advancePc i).reg .pc - BitVec.ofNat 64 j) = .ok w := by
  have hback : (s.advancePc i).reg .pc - BitVec.ofNat 64 j = s.reg .pc + BitVec.ofNat 64 k := by
    rw [State.advancePc_pc, ← hj, BitVec.ofNat_add, ← BitVec.add_assoc, BitVec.add_sub_cancel]
  rw [hback]
  exact State.fetchDecode_ok_iff.mp hi k w hw

/-- Writes of two different registers may be exchanged. -/
theorem State.setReg_comm (s : State) {q r : Reg} (u v : Word) (h : q ≠ r) :
    (s.setReg q u).setReg r v = (s.setReg r v).setReg q u := by
  refine State.ext_of_reg (fun p => ?_) rfl rfl rfl rfl
  simp only [State.reg_setReg]
  split
  case isTrue hr => simp [hr, h.symm]
  case isFalse => rfl

theorem State.advancePc_setReg (s : State) (i : Instr) {q : Reg} (v : Word) (h : q ≠ .pc) :
    (s.setReg q v).advancePc i = (s.advancePc i).setReg q v := by
  unfold State.advancePc
  rw [State.reg_setReg_other s v h.symm, State.setReg_comm s v _ h]

@[simp] theorem State.withFetchWord_reg (s : State) (nbits w : Nat) (r : Reg) :
    (s.withFetchWord nbits w).reg r = s.reg r := rfl
@[simp] theorem State.withFetchWord_status (s : State) (nbits w : Nat) :
    (s.withFetchWord nbits w).status = .running := rfl
@[simp] theorem State.withFetchWord_program (s : State) (nbits w : Nat) :
    (s.withFetchWord nbits w).program = placeWords s.program (s.reg .pc).toNat (tableWords nbits w) := rfl

/-- An instruction placed where no address of it wraps is the one that fetch and decode find. -/
theorem State.fetchDecode_withFetchWord {s : State} {nbits w : Nat} {i : Instr}
    (hpc : (s.reg .pc).toNat + 3 ≤ 2 ^ 64 - 1) (hdec : decodeTableWord nbits w = some i) :
    (s.withFetchWord nbits w).fetchDecode = .ok i := by
  refine State.fetchDecode_ok_iff.mpr fun k u hu => ?_
  have hk : k < 3 := (lt_size_of_encode_getElem? hu).trans_le i.size_le_three
  have hplaced : (tableWords nbits w)[k]? = some u :=
    readWord_ok_iff.mp (decodeFrom_ok_iff.mp (decodeTableWord_eq_some hdec) k u hu)
  rw [State.fetch_ok_iff, State.withFetchWord_reg, toNat_add_ofNat_of_lt (by omega), State.withFetchWord_program,
    placeWords_get _ _ _ _ hk, hplaced]

end Sys2Proof.Machine
end

section
/-! What an instruction can do in execute, said once (spec 40_cycle.md R96): it has one effect, which its kind allows
and which the registers it sees determine alone. Every statement about all instructions is derived from `exec_hasEffect`. -/

namespace Sys2Proof.Machine

theorem Reg.index_injective : Function.Injective Reg.index := fun q r h => by
  have := congrArg Reg.ofIndex h
  simpa using this

/-- Only a word from 8 up names no register (R77). -/
theorem Reg.eight_le_of_ofIndex_eq_none {w : Word} (h : Reg.ofIndex w = none) : 8 ≤ w.toNat := by
  by_contra hlt
  have hle : w.toNat ≤ 7 := by omega
  unfold Reg.ofIndex at h
  interval_cases w.toNat <;> simp at h

/-- The one thing an instruction does to the state after the PC advance. -/
inductive Effect where
  /-- Nothing: a JumpNotEq that is not taken. -/
  | keep
  /-- Write one register. -/
  | write (r : Reg) (v : Word)
  /-- Emit one event. -/
  | emit (d : DebugDump)
  /-- End the run with Ok. -/
  | stop
  /-- Raise a fault. -/
  | fault (f : Fault)

/-- The state an effect leaves. -/
def Effect.apply : Effect → State → State
  | .keep, s => s
  | .write r v, s => s.setReg r v
  | .emit d, s => s.emit d
  | .stop, s => s.afterSignal .stop
  | .fault f, s => s.withFault f

/-- The events an effect adds to the debug stream. -/
def Effect.events : Effect → List DebugDump
  | .emit d => [d]
  | .keep | .write _ _ | .stop | .fault _ => []

@[simp] theorem Effect.apply_stack (e : Effect) (s : State) : (e.apply s).stack = s.stack := by cases e <;> rfl
@[simp] theorem Effect.apply_program (e : Effect) (s : State) : (e.apply s).program = s.program := by cases e <;> rfl
@[simp] theorem Effect.apply_memRead (e : Effect) (s : State) (a : Nat) : (e.apply s).memRead a = s.memRead a := by
  cases e <;> rfl
@[simp] theorem Effect.apply_debug (e : Effect) (s : State) : (e.apply s).debug = s.debug ++ e.events := by
  cases e <;> simp [Effect.apply, Effect.events]

/-- The recorded events play no part in an effect. -/
theorem Effect.apply_with_debug (e : Effect) (s : State) (l : List DebugDump) :
    e.apply { s with debug := l } = { e.apply s with debug := l ++ e.events } := by
  cases e with
  | emit d => rfl
  | keep | write | stop | fault => simp [Effect.apply, Effect.events, State.setReg, State.afterSignal, State.withFault]

/-- Which effects an instruction may have from a state (R34, R97, R133, R150, R163). -/
def Effect.Allowed (i : Instr) (s : State) : Effect → Prop
  | .keep => ∃ addr, i = .jumpNotEq addr ∧ s.reg .ac = 1
  | .write r _ => MayWrite i s r
  | .emit d => i = .debugRegs ∧ d = s.dump
  | .stop => i = .halt
  | .fault f =>
      (∃ w ∈ i.regOperands, Reg.ofIndex w = none ∧ f = .registerIndexOutOfRange w) ∨
      (∃ addr, i = .jumpEq addr ∧ f = .unsupportedOpcode 6)

/-- The registers that can matter to an instruction in execute: those it names, ac, and all eight for DebugRegs. -/
def Sees (i : Instr) (r : Reg) : Prop := i = .debugRegs ∨ r = .ac ∨ r.index ∈ i.regOperands

/-- The meaning `m` has one effect, which `i` may have from `s`, on every state that agrees with `s` on the registers
`i` sees. -/
def HasEffect (i : Instr) (s : State) (m : State → StepResult) : Prop :=
  ∃ e : Effect, e.Allowed i s ∧ ∀ s', (∀ r, Sees i r → s'.reg r = s.reg r) → m s' = .next (e.apply s')

/-- The check of a register operand adds only the fault of that operand. -/
theorem HasEffect.of_checkReg {i : Instr} {s : State} {w : Word} {rest : State → Reg → StepResult}
    (hw : w ∈ i.regOperands) (h : ∀ r : Reg, r.index = w → HasEffect i s fun s' => rest s' r) :
    HasEffect i s fun s' => checkReg s' w (rest s') := by
  cases hr : Reg.ofIndex w with
  | none =>
    refine ⟨.fault (.registerIndexOutOfRange w), .inl ⟨w, hw, hr, rfl⟩, fun s' _ => ?_⟩
    simp [checkReg, hr, State.raise, Effect.apply]
  | some r =>
    obtain rfl := Reg.ofIndex_eq_some hr
    simpa using h r rfl

/-- The same for two register operands. -/
theorem HasEffect.of_checkRegs {i : Instr} {s : State} {w u : Word} {rest : State → Reg → Reg → StepResult}
    (hw : w ∈ i.regOperands) (hu : u ∈ i.regOperands)
    (h : ∀ r q : Reg, r.index = w → q.index = u → HasEffect i s fun s' => rest s' r q) :
    HasEffect i s fun s' => checkRegs s' w u (rest s') :=
  .of_checkReg hw fun r hr => .of_checkReg hu fun q hq => h r q hr hq

/-- A write of a value read from the registers the instruction sees. -/
theorem HasEffect.of_setReg {i : Instr} {s : State} {r : Reg} {value : State → Word} (hr : MayWrite i s r)
    (hv : ∀ s', (∀ r, Sees i r → s'.reg r = s.reg r) → value s' = value s) :
    HasEffect i s fun s' => (s'.setReg r (value s')).finish .goOn :=
  ⟨.write r (value s), hr, fun s' hs' => by simp only [hv s' hs']; rfl⟩

theorem exec_jumpNotEq_taken {s : State} (addr : Word) (h : s.reg .ac ≠ 1) :
    exec (.jumpNotEq addr) s = .next (s.setReg .pc addr) := by
  simp [exec, execJumpNotEq, (branchTaken_iff s).mpr h, State.finish]

theorem exec_jumpNotEq_notTaken {s : State} (addr : Word) (h : s.reg .ac = 1) :
    exec (.jumpNotEq addr) s = .next s := by
  simp [exec, execJumpNotEq, branchTaken, h, State.finish]

theorem State.dump_congr {s t : State} (h : ∀ r, t.reg r = s.reg r) : t.dump = s.dump := by
  simp [State.dump, h]

/-- Execute, for every instruction: it answers a next state, by one effect that is allowed to it and that depends on
nothing but the registers it sees. -/
theorem exec_hasEffect (i : Instr) (s : State) : HasEffect i s (exec i) := by
  cases i with
  | halt => exact ⟨.stop, rfl, fun _ _ => rfl⟩
  | debugRegs =>
    refine ⟨.emit s.dump, ⟨rfl, rfl⟩, fun s' hs' => ?_⟩
    rw [← State.dump_congr fun r => hs' r (.inl rfl)]
    rfl
  | jumpEq addr => exact ⟨.fault (.unsupportedOpcode 6), .inr ⟨addr, rfl, rfl⟩, fun _ _ => rfl⟩
  | jumpNotEq addr =>
    have hac : Sees (.jumpNotEq addr) .ac := .inr (.inl rfl)
    by_cases h : s.reg .ac = 1
    · exact ⟨.keep, ⟨addr, rfl, h⟩, fun s' hs' => exec_jumpNotEq_notTaken addr ((hs' .ac hac).trans h)⟩
    · exact ⟨.write .pc addr, ⟨rfl, h⟩, fun s' hs' => exec_jumpNotEq_taken addr (by rwa [hs' .ac hac])⟩
  | setRegImm dst imm => exact .of_checkReg (by simp [Instr.regOperands]) fun r hr => .of_setReg hr fun _ _ => rfl
  | setRegReg dst src =>
    exact .of_checkRegs (by simp [Instr.regOperands]) (by simp [Instr.regOperands]) fun d r hd hr =>
      .of_setReg hd fun s' hs' => hs' r (.inr (.inr (by simp [Instr.regOperands, hr])))
  | addRegReg a b =>
    refine .of_checkRegs (by simp [Instr.regOperands]) (by simp [Instr.regOperands]) fun ra rb ha hb =>
      .of_setReg rfl fun s' hs' => ?_
    rw [hs' ra (.inr (.inr (by simp [Instr.regOperands, ha]))), hs' rb (.inr (.inr (by simp [Instr.regOperands, hb])))]
  | addRegImm a imm =>
    refine .of_checkReg (by simp [Instr.regOperands]) fun ra ha => .of_setReg rfl fun s' hs' => ?_
    rw [hs' ra (.inr (.inr (by simp [Instr.regOperands, ha])))]
  | cmpRegImm reg imm =>
    refine .of_checkReg (by simp [Instr.regOperands]) fun r hr => .of_setReg rfl fun s' hs' => ?_
    rw [hs' r (.inr (.inr (by simp [Instr.regOperands, hr])))]

/-- The effect of one execution. -/
theorem exec_effect {i : Instr} {s t : State} (h : exec i s = .next t) :
    ∃ e : Effect, e.Allowed i s ∧ t = e.apply s := by
  obtain ⟨e, he, hs⟩ := exec_hasEffect i s
  exact ⟨e, he, Host.Outcome.next.inj (h.symm.trans (hs s fun _ _ => rfl))⟩

/-- Only DebugRegs adds an event (R42). -/
theorem Effect.Allowed.events_eq_nil {i : Instr} {s : State} {e : Effect} (he : e.Allowed i s) (hi : i ≠ .debugRegs) :
    e.events = [] := by
  cases e with
  | emit d => exact absurd he.1 hi
  | keep | write | stop | fault => rfl

/-- An effect changes only a register the instruction may write. -/
theorem Effect.Allowed.mayWrite_of_reg_ne {i : Instr} {s : State} {e : Effect} (he : e.Allowed i s) {q : Reg}
    (hq : (e.apply s).reg q ≠ s.reg q) : MayWrite i s q := by
  cases e with
  | write r v =>
    obtain rfl : q = r := by
      by_contra hne
      exact hq (State.reg_setReg_other s v hne)
    exact he
  | keep | emit | stop | fault => exact absurd rfl hq

/-- The register an instruction may write is one (R34). -/
theorem MayWrite.unique {i : Instr} {s : State} {q r : Reg} (hq : MayWrite i s q) (hr : MayWrite i s r) : q = r := by
  cases i with
  | setRegImm | setRegReg => exact Reg.index_injective (hq.trans hr.symm)
  | addRegReg | addRegImm | cmpRegImm => exact hq.trans hr.symm
  | jumpNotEq => exact hq.1.trans hr.1.symm
  | halt | jumpEq | debugRegs => exact hq.elim

/-- A register an instruction may write is pc, ac or one it names (R23). -/
theorem MayWrite.named {i : Instr} {s : State} {r : Reg} (h : MayWrite i s r) :
    r = .pc ∨ r = .ac ∨ r.index ∈ i.regOperands := by
  cases i with
  | setRegImm | setRegReg => exact .inr (.inr (List.mem_cons.mpr (.inl h)))
  | addRegReg | addRegImm | cmpRegImm => exact .inr (.inl h)
  | jumpNotEq => exact .inl h.1
  | halt | jumpEq | debugRegs => exact h.elim

/-- An effect that neither emits nor writes `q` commutes with a write of `q`. -/
theorem Effect.apply_setReg {i : Instr} {s : State} {e : Effect} (he : e.Allowed i s) (hi : i ≠ .debugRegs) {q : Reg}
    (hq : ¬ MayWrite i s q) (u : State) (v : Word) : e.apply (u.setReg q v) = (e.apply u).setReg q v := by
  cases e with
  | write r w => exact State.setReg_comm u v w fun h => hq (h ▸ he)
  | emit d => exact absurd he.1 hi
  | keep | stop | fault => rfl

end Sys2Proof.Machine
end

section
/-! The invariant over one step: the faults of fetch and decode, then the effects of execute, are each precise
(spec 60_exceptions.md R160 to R169). -/

namespace Sys2Proof.Machine

/-- What a fault says of a state does not speak of the status. -/
theorem FaultSound.withFault {s : State} {f : Fault} (h : FaultSound s f) (g : Fault) :
    FaultSound (s.withFault g) f := by
  cases f <;> exact h

theorem faultSound_of_fetchDecode_error {s : State} {f : Fault} (h : s.fetchDecode = .error f) : FaultSound s f := by
  rcases State.fetchDecode_error h with ⟨w, rfl, hw, hfetch⟩ | ⟨k, hk, rfl, hlen⟩
  · exact ⟨hw, hfetch⟩
  · refine ⟨hlen, ?_⟩
    match k, hk with
    | 0, _ => exact .inl (BitVec.add_zero _)
    | 1, _ => exact .inr (.inl rfl)
    | 2, _ => exact .inr (.inr rfl)

/-- A fault of execute stands just after the instruction that raised it. -/
theorem faultSound_of_allowed {s : State} {i : Instr} {f : Fault} (hfit : s.programFits) (hi : s.fetchDecode = .ok i)
    (hf : (Effect.fault f).Allowed i (s.advancePc i)) : FaultSound (s.advancePc i) f := by
  have hpc := State.advancePc_pc_toNat hfit hi
  have hle := State.pc_add_size_le hfit hi
  rcases hf with ⟨w, hw, hbad, rfl⟩ | ⟨addr, rfl, rfl⟩
  · obtain ⟨hsize, hpos⟩ := encode_of_mem_regOperands hw
    refine ⟨Reg.eight_le_of_ofIndex_eq_none hbad, by omega, hpc.trans_le hle, ?_⟩
    exact hpos.imp (fun h1 => State.fetch_before_advancedPc hi h1 (j := 2) hsize.symm)
      (fun h2 => State.fetch_before_advancedPc hi h2 (j := 1) hsize.symm)
  · have hsize : (Instr.jumpEq addr).size = 2 := rfl
    exact ⟨rfl, by omega, hpc.trans_le hle, State.fetch_before_advancedPc hi (k := 0) (j := 2) rfl rfl⟩

/-- The invariant from a state with the same stack and program: only the fault, the halt and the dumps are left. -/
theorem State.Inv.of_kept {s t : State} (hs : s.Inv) (hstack : t.stack = s.stack) (hprogram : t.program = s.program)
    (hfault : ∀ f, t.status = .faulted f → FaultSound t f)
    (hhalt : t.status = .halted →
      1 ≤ (t.reg .pc).toNat ∧ (t.reg .pc).toNat ≤ t.program.length ∧ t.fetch (t.reg .pc - 1) = .ok 0)
    (hdumps : ∀ d ∈ t.debug, d.v0 ≠ 0) : t.Inv where
  stackCanonical := hstack ▸ hs.stackCanonical
  stackZero a ha := by simpa only [State.memRead, hstack] using hs.stackZero a ha
  programFits := by simpa only [State.programFits, hprogram] using hs.programFits
  faultSound := hfault
  haltSound := hhalt
  dumpsAdvanced := hdumps

/-- A dump that an instruction emits shows its advanced pc, which is not 0 (R150, R27). -/
theorem event_pc_ne_zero {s : State} {i : Instr} {e : Effect} (hfit : s.programFits) (hi : s.fetchDecode = .ok i)
    (he : e.Allowed i (s.advancePc i)) : ∀ d ∈ e.events, d.v0 ≠ 0 := by
  cases e with
  | keep | write | stop | fault => simp [Effect.events]
  | emit d =>
    intro d' hd'
    obtain rfl := List.mem_singleton.mp hd'
    obtain ⟨-, rfl⟩ := he
    intro hzero
    have hpc := State.advancePc_pc_toNat hfit hi
    have hsize := i.one_le_size
    rw [show (s.advancePc i).reg .pc = 0 from hzero] at hpc
    simp at hpc
    omega

/-- Every effect allowed to the decoded instruction keeps the invariant. -/
theorem State.Inv.apply_effect {s : State} {i : Instr} {e : Effect} (hs : s.Inv) (hr : s.status = .running)
    (hi : s.fetchDecode = .ok i) (he : e.Allowed i (s.advancePc i)) : (e.apply (s.advancePc i)).Inv := by
  have hdumps : ∀ d ∈ (e.apply (s.advancePc i)).debug, d.v0 ≠ 0 := fun d hd => by
    rw [Effect.apply_debug, State.advancePc_debug] at hd
    exact (List.mem_append.mp hd).elim (hs.dumpsAdvanced d) (event_pc_ne_zero hs.programFits hi he d)
  have hrun : (s.advancePc i).status = .running := hr
  refine hs.of_kept (Effect.apply_stack _ _) (Effect.apply_program _ _) (fun f hf => ?_) (fun hh => ?_) hdumps
  · cases e with
    | fault g =>
      obtain rfl := RunStatus.faulted.inj hf
      exact (faultSound_of_allowed hs.programFits hi he).withFault _
    | keep | write | emit => exact absurd (hrun.symm.trans hf) (by simp)
    | stop => cases hf
  · cases e with
    | stop =>
      obtain rfl : i = .halt := he
      have hpc := State.advancePc_pc_toNat hs.programFits hi
      have hle := State.pc_add_size_le hs.programFits hi
      have hsize : Instr.halt.size = 1 := rfl
      exact ⟨by simp only [Effect.apply, State.afterSignal_reg]; omega, hpc.trans_le hle,
        State.fetch_before_advancedPc hi (k := 0) (j := 1) rfl rfl⟩
    | keep | write | emit => exact absurd (hrun.symm.trans hh) (by simp)
    | fault => cases hh

/-- Settles O50, by the three cases of a step and the effects of execute. -/
theorem stepKeepsTheInvariant : Obligations.StepKeepsTheInvariant := by
  intro s t hs ht
  rcases step_cases s with ⟨_, h⟩ | ⟨f, _, hf, h⟩ | ⟨i, hr, hi, h⟩
  · obtain rfl := Host.Outcome.next.inj (h.symm.trans ht)
    exact hs
  · obtain rfl := Host.Outcome.next.inj (h.symm.trans ht)
    refine hs.of_kept rfl rfl (fun g hg => ?_) (fun hh => by cases hh) hs.dumpsAdvanced
    obtain rfl := RunStatus.faulted.inj hg
    exact (faultSound_of_fetchDecode_error hf).withFault _
  · obtain ⟨e, he, rfl⟩ := exec_effect (h.symm.trans ht)
    exact hs.apply_effect hr hi he

/-- Settles O48. -/
theorem resetHasTheInvariant : Obligations.ResetHasTheInvariant where
  stackCanonical := State.reset_wf
  stackZero a ha := by simp [State.memRead, ha, Memory.read, Memory.unlisted]
  programFits := Nat.zero_le _
  faultSound f hf := by simp at hf
  haltSound hh := by simp at hh
  dumpsAdvanced d hd := by simp at hd

/-- Settles O1. -/
theorem resetZeroesRegistersAndStack : Obligations.ResetZeroesRegistersAndStack :=
  ⟨State.reset_reg, resetHasTheInvariant.stackZero, State.reset_status⟩

end Sys2Proof.Machine
end

section
/-! Steps: with no run in progress, with other registers, with another debug stream, and of a placed instruction. -/

namespace Sys2Proof.Machine

/-- Settles O5, from the cases of a step. -/
theorem noCycleOutsideRunning : Obligations.NoCycleOutsideRunning := by
  intro s hs
  rcases step_cases s with ⟨_, h⟩ | ⟨_, hr, _⟩ | ⟨_, hr, _⟩
  · exact h
  · exact absurd hr hs
  · exact absurd hr hs

/-- Settles O6, by induction on the number of steps. -/
theorem endedRunStaysEnded : Obligations.EndedRunStaysEnded := by
  intro k s hs
  induction k with
  | zero => rfl
  | succ k ih => exact (run_succ_of_next (M := core) k (noCycleOutsideRunning s hs)).trans ih

/-- Settles O27, from the effects of execute. -/
theorem executeWritesAtMostOneRegister : Obligations.ExecuteWritesAtMostOneRegister := by
  intro i s t ht
  obtain ⟨e, he, rfl⟩ := exec_effect ht
  exact ⟨fun q hq => he.mayWrite_of_reg_ne hq, fun q r => MayWrite.unique, Effect.apply_memRead e s,
    Effect.apply_program e s⟩

/-- Settles O28: the unnamed register is not seen by execute, so the same effect happens beside it. -/
theorem unnamedRegisterHasNoEffect : Obligations.UnnamedRegisterHasNoEffect := by
  intro s t i q v hr hi hdebug hpc hac hnamed ht
  have hunseen : ¬ Sees i q := fun h => h.elim hdebug fun h => h.elim hac hnamed
  have hunwritten : ¬ MayWrite i (s.advancePc i) q := fun h => h.named.elim hpc fun h => h.elim hac hnamed
  obtain ⟨e, he, hexec⟩ := exec_hasEffect i (s.advancePc i)
  obtain rfl : t = e.apply (s.advancePc i) :=
    Host.Outcome.next.inj (ht.symm.trans ((step_of_ok hr hi).trans (hexec _ fun _ _ => rfl)))
  constructor
  · have hkept : (e.apply (s.advancePc i)).reg q = (s.advancePc i).reg q :=
      not_not.mp fun h => hunwritten (he.mayWrite_of_reg_ne h)
    exact hkept.trans (State.advancePc_reg s i hpc)
  · have hagree : ∀ r, Sees i r → ((s.advancePc i).setReg q v).reg r = (s.advancePc i).reg r := fun r hsees =>
      State.reg_setReg_other _ v fun h => hunseen (h ▸ hsees)
    calc step (s.setReg q v)
        = exec i ((s.setReg q v).advancePc i) := step_of_ok hr ((State.fetchDecode_setReg v hpc).trans hi)
      _ = exec i ((s.advancePc i).setReg q v) := by rw [State.advancePc_setReg s i v hpc]
      _ = .next (e.apply ((s.advancePc i).setReg q v)) := hexec _ hagree
      _ = .next ((e.apply (s.advancePc i)).setReg q v) := by rw [Effect.apply_setReg he hdebug hunwritten]

/-- A DebugRegs cycle adds the event of the eight values, pc being the advanced one (R150). -/
theorem step_debug_of_debugRegs {s t : State} (hr : s.status = .running) (h8 : s.fetch (s.reg .pc) = .ok 8)
    (ht : step s = .next t) : t.debug = s.debug ++
      [⟨s.reg .pc + 1, s.reg .sp, s.reg .ac, s.reg .fl, s.reg .r1, s.reg .r2, s.reg .r3, s.reg .r4⟩] := by
  have hstep := step_of_ok hr (State.fetchDecode_of_fetch_debugRegs h8)
  obtain rfl := Host.Outcome.next.inj (hstep.symm.trans ht)
  rfl

/-- A cycle whose opcode word is not that of DebugRegs adds no event. -/
theorem step_debug_of_ne {s t : State} (h8 : s.fetch (s.reg .pc) ≠ .ok 8) (ht : step s = .next t) :
    t.debug = s.debug := by
  rcases step_cases s with ⟨_, h⟩ | ⟨f, _, _, h⟩ | ⟨i, _, hi, h⟩
  · obtain rfl := Host.Outcome.next.inj (h.symm.trans ht)
    rfl
  · obtain rfl := Host.Outcome.next.inj (h.symm.trans ht)
    rfl
  · obtain ⟨e, he, rfl⟩ := exec_effect (h.symm.trans ht)
    have hne : i ≠ .debugRegs := by
      rintro rfl
      exact h8 (State.fetch_pc_of_fetchDecode hi)
    simp [he.events_eq_nil hne]

/-- Settles O43. -/
theorem debugStreamHasOneEventPerDebugRegs : Obligations.DebugStreamHasOneEventPerDebugRegs :=
  ⟨fun _ _ hr ht => ⟨fun h8 => step_debug_of_debugRegs hr h8 ht, fun h8 => step_debug_of_ne h8 ht⟩, fun _ => rfl⟩

/-- Settles O46: an effect depends on the registers alone and adds its own events to any stream. -/
theorem debugStreamIsWriteOnly : Obligations.DebugStreamIsWriteOnly := by
  intro s t ht
  rcases step_cases s with ⟨hr, h⟩ | ⟨f, hr, hf, h⟩ | ⟨i, hr, hi, h⟩
  · obtain rfl := Host.Outcome.next.inj (h.symm.trans ht)
    refine ⟨[], by simp, fun l => ?_⟩
    rw [List.append_nil]
    exact noCycleOutsideRunning _ hr
  · obtain rfl := Host.Outcome.next.inj (h.symm.trans ht)
    refine ⟨[], by simp, fun l => ?_⟩
    rw [List.append_nil]
    exact step_of_error (s := { s with debug := l }) hr hf
  · obtain ⟨e, he, hexec⟩ := exec_hasEffect i (s.advancePc i)
    obtain rfl : t = e.apply (s.advancePc i) :=
      Host.Outcome.next.inj (ht.symm.trans (h.trans (hexec _ fun _ _ => rfl)))
    refine ⟨e.events, by simp, fun l => ?_⟩
    calc step { s with debug := l }
        = exec i { s.advancePc i with debug := l } := step_of_ok (s := { s with debug := l }) hr hi
      _ = .next (e.apply { s.advancePc i with debug := l }) := hexec _ fun _ _ => rfl
      _ = .next { e.apply (s.advancePc i) with debug := l ++ e.events } := by rw [Effect.apply_with_debug]

/-- Settles O52: the placed words are found by fetch and decode. -/
theorem placedInstructionRunsNext : Obligations.PlacedInstructionRunsNext := by
  intro s nbits w i hpc hdec
  exact ⟨step_of_ok (State.withFetchWord_status s nbits w) (State.fetchDecode_withFetchWord hpc hdec),
    State.withFetchWord_reg s nbits w, fun _ => rfl, rfl⟩

end Sys2Proof.Machine
end

section
/-! The two memories (spec 20_memory.md): what the program read answers (R51), the 4096 bytes of the stack that no
instruction reaches (R53), and the words of the program that a cycle reads (R57, R58). -/

namespace Sys2Proof.Machine

/-- Settles O13, from the two outcomes of a program read. -/
theorem fetchReadsTheProgram : Obligations.FetchReadsTheProgram := by
  intro s a
  exact ⟨fun hlt => State.fetch_ok_iff.mpr (List.getElem?_eq_getElem hlt),
    fun hle => State.fetch_error_iff.mpr ⟨hle, rfl⟩⟩

theorem State.memRead_isSome_iff (s : State) (a : Nat) : (s.memRead a).isSome = true ↔ a < 4096 := by
  unfold State.memRead
  split
  case isTrue h => exact iff_of_true rfl h
  case isFalse h => exact iff_of_false (by simp) h

/-- The stack plays no part in an effect. -/
theorem Effect.apply_with_stack (e : Effect) (s : State) (m : Memory) :
    e.apply { s with stack := m } = { e.apply s with stack := m } := by
  cases e <;> rfl

/-- The program plays no part in an effect. -/
theorem Effect.apply_with_program (e : Effect) (s : State) (p : List Word) :
    e.apply { s with program := p } = { e.apply s with program := p } := by
  cases e <;> rfl

/-- The effect of one execution, which is also that of an execution from any state with the same registers. -/
theorem exec_effect_of_sameRegs {i : Instr} {s t : State} (h : exec i s = .next t) :
    ∃ e : Effect, t = e.apply s ∧ ∀ s', s'.regs = s.regs → exec i s' = .next (e.apply s') := by
  obtain ⟨e, _, hexec⟩ := exec_hasEffect i s
  exact ⟨e, Host.Outcome.next.inj (h.symm.trans (hexec s fun _ _ => rfl)),
    fun s' hregs => hexec s' fun r _ => congrArg (RegFile.get · r) hregs⟩

theorem exec_with_stack {i : Instr} {s t : State} (h : exec i s = .next t) (m : Memory) :
    exec i { s with stack := m } = .next { t with stack := m } := by
  obtain ⟨e, rfl, hexec⟩ := exec_effect_of_sameRegs h
  rw [← Effect.apply_with_stack]
  exact hexec _ rfl

theorem exec_with_program {i : Instr} {s t : State} (h : exec i s = .next t) (p : List Word) :
    exec i { s with program := p } = .next { t with program := p } := by
  obtain ⟨e, rfl, hexec⟩ := exec_effect_of_sameRegs h
  rw [← Effect.apply_with_program]
  exact hexec _ rfl

theorem step_memRead {s t : State} (ht : step s = .next t) (a : Nat) : t.memRead a = s.memRead a := by
  rcases step_cases s with ⟨_, h⟩ | ⟨f, _, _, h⟩ | ⟨i, _, _, h⟩
  · obtain rfl := Host.Outcome.next.inj (h.symm.trans ht)
    rfl
  · obtain rfl := Host.Outcome.next.inj (h.symm.trans ht)
    rfl
  · obtain ⟨e, _, rfl⟩ := exec_effect (h.symm.trans ht)
    exact Effect.apply_memRead e _ a

/-- A step does the same beside any stack contents: fetch and decode read the program and pc alone, and execute sees
only registers. -/
theorem step_with_stack {s t : State} (ht : step s = .next t) (m : Memory) :
    step { s with stack := m } = .next { t with stack := m } := by
  rcases step_cases s with ⟨hr, h⟩ | ⟨f, hr, hf, h⟩ | ⟨i, hr, hi, h⟩
  · obtain rfl := Host.Outcome.next.inj (h.symm.trans ht)
    exact noCycleOutsideRunning _ hr
  · obtain rfl := Host.Outcome.next.inj (h.symm.trans ht)
    exact step_of_error (s := { s with stack := m }) hr hf
  · calc step { s with stack := m }
        = exec i { s.advancePc i with stack := m } := step_of_ok (s := { s with stack := m }) hr hi
      _ = .next { t with stack := m } := exec_with_stack (h.symm.trans ht) m

/-- Settles O45. -/
theorem stackIsReachedByNoInstruction : Obligations.StackIsReachedByNoInstruction :=
  ⟨State.memRead_isSome_iff, fun _ _ => step_memRead, fun _ _ m ht => step_with_stack ht m⟩

/-- A program that reads alike at the words of the decoded instruction decodes to the same instruction. -/
theorem State.fetchDecode_with_program {s : State} {i : Instr} {p : List Word} (hi : s.fetchDecode = .ok i)
    (hread : ∀ k, k < i.size →
      ({ s with program := p } : State).fetch (s.reg .pc + BitVec.ofNat 64 k)
        = s.fetch (s.reg .pc + BitVec.ofNat 64 k)) :
    ({ s with program := p } : State).fetchDecode = .ok i :=
  State.fetchDecode_ok_iff.mpr fun k w hw =>
    (hread k (lt_size_of_encode_getElem? hw)).trans (State.fetchDecode_ok_iff.mp hi k w hw)

/-- Settles O47: the same instruction is decoded, and execute reads no word of the program. -/
theorem cycleReadsOnlyTheInstructionsWords : Obligations.CycleReadsOnlyTheInstructionsWords := by
  intro s t i p hr hi hread ht
  have hdec := State.fetchDecode_with_program hi hread
  have hexec : exec i (s.advancePc i) = .next t := (step_of_ok hr hi).symm.trans ht
  calc step { s with program := p }
      = exec i { s.advancePc i with program := p } := step_of_ok (s := { s with program := p }) hr hdec
    _ = .next { t with program := p } := exec_with_program hexec p

end Sys2Proof.Machine
end

section
/-! The maps from words to opcodes and to registers, and the decoder on lists of words: which words name nothing, which
lists decode to an instruction, and which fail with which error (spec 30_encoding.md R70 to R81). -/

namespace Sys2Proof

theorem Opcode.toWord_toNat_lt (op : Opcode) : op.toWord.toNat < 9 := by
  cases op <;> decide

theorem Opcode.ofWord_eq_some_iff {w : Word} {op : Opcode} : Opcode.ofWord w = some op ↔ w = op.toWord :=
  ⟨Opcode.ofWord_eq_some, fun h => h ▸ Opcode.ofWord_toWord op⟩

theorem Opcode.ofWord_eq_none_iff {w : Word} : Opcode.ofWord w = none ↔ 9 ≤ w.toNat := by
  refine ⟨Opcode.nine_le_of_ofWord_eq_none, fun h => Option.eq_none_iff_forall_ne_some.mpr fun op hop => ?_⟩
  obtain rfl := Opcode.ofWord_eq_some hop
  exact absurd op.toWord_toNat_lt (Nat.not_lt.mpr h)

theorem readWord_zero_ok_iff {ws : List Word} {w : Word} : readWord ws 0 = .ok w ↔ ws.head? = some w := by
  rw [readWord_ok_iff, List.head?_eq_getElem?]

theorem readWord_error_iff {ws : List Word} {k : Nat} {e : DecodeError} :
    readWord ws k = .error e ↔ ws.length ≤ k ∧ e = .missingWord k := by
  unfold readWord
  cases h : ws[k]? with
  | none => simp [List.getElem?_eq_none_iff.mp h, eq_comm]
  | some w =>
    have hlt := (List.getElem?_eq_some_iff.mp h).1
    simp [Nat.not_le.mpr hlt]

/-- An operand fetch fails at the first operand word whose read fails (R93). -/
theorem decodeOperands_of_first_error {ε : Type} {read : Nat → Except ε Word} {op : Opcode} {k : Nat} {e : ε}
    (hpos : 1 ≤ k) (hcount : k ≤ op.operandCount) (hbefore : ∀ j, 1 ≤ j → j < k → ∃ w, read j = .ok w)
    (hk : read k = .error e) : decodeOperands read op = .error e := by
  cases op with
  | halt | debugRegs => exact absurd (hpos.trans hcount) (by decide)
  | jumpEq | jumpNotEq =>
    obtain rfl : k = 1 := Nat.le_antisymm hcount hpos
    simp [decodeOperands, readOne, hk]
  | setRegImm | setRegReg | addRegReg | addRegImm | cmpRegImm =>
    have hle : k ≤ 2 := hcount
    obtain rfl | rfl : k = 1 ∨ k = 2 := by omega
    · simp [decodeOperands, readTwo, hk]
    · obtain ⟨o1, h1⟩ := hbefore 1 (Nat.le_refl 1) (by decide)
      simp [decodeOperands, readTwo, h1, hk]

/-- Words decode to an instruction exactly when they begin with its encoding. -/
theorem decode_ok_iff_prefix {ws : List Word} {i : Instr} : decode ws = .ok i ↔ encode i <+: ws := by
  have hwords : decode ws = .ok i ↔ ∀ (k : Nat) (w : Word), (encode i)[k]? = some w → ws[k]? = some w := by
    simp only [decode, decodeFrom_ok_iff, readWord_ok_iff]
  rw [hwords, List.prefix_iff_getElem?]
  constructor
  · intro h k hk
    exact h k _ (List.getElem?_eq_getElem hk)
  · intro h k w hw
    obtain ⟨hk, rfl⟩ := List.getElem?_eq_some_iff.mp hw
    exact h k hk

theorem decode_encode_append (i : Instr) (rest : List Word) : decode (encode i ++ rest) = .ok i :=
  decode_ok_iff_prefix.mpr (List.prefix_append _ _)

theorem decode_encode (i : Instr) : decode (encode i) = .ok i :=
  decode_ok_iff_prefix.mpr List.prefix_rfl

theorem decode_of_unknown_head {ws : List Word} {w : Word} (hhead : ws.head? = some w) (hw : 9 ≤ w.toNat) :
    decode ws = .error (.unknownOpcode w) := by
  simp [decode, decodeFrom, readWord_zero_ok_iff.mpr hhead, Opcode.ofWord_eq_none_iff.mpr hw]

/-- A list that ends among the operands of its opcode lacks the word just past its end. -/
theorem decode_of_length_le {ws : List Word} {op : Opcode} (hhead : ws.head? = some op.toWord)
    (hlen : ws.length ≤ op.operandCount) : decode ws = .error (.missingWord ws.length) := by
  have hpos : 1 ≤ ws.length := List.length_pos_of_mem (List.mem_of_head? hhead)
  have hbefore : ∀ j, 1 ≤ j → j < ws.length → ∃ w, readWord ws j = .ok w := fun j _ hj =>
    ⟨ws[j], readWord_ok_iff.mpr (List.getElem?_eq_getElem hj)⟩
  have hend : readWord ws ws.length = .error (.missingWord ws.length) :=
    readWord_error_iff.mpr ⟨Nat.le_refl _, rfl⟩
  exact (decodeFrom_of_opcode (readWord_zero_ok_iff.mpr hhead)).trans
    (decodeOperands_of_first_error hpos hlen hbefore hend)

/-- Everything the decoder can answer on a list of words: the list is empty, its first word is no opcode, it ends among
the operands, or it begins with the encoding of the answer. -/
theorem decode_cases (ws : List Word) :
    (ws = [] ∧ decode ws = .error (.missingWord 0)) ∨
    (∃ w, ws.head? = some w ∧ 9 ≤ w.toNat ∧ decode ws = .error (.unknownOpcode w)) ∨
    (∃ op : Opcode, ws.head? = some op.toWord ∧ ws.length ≤ op.operandCount ∧
      decode ws = .error (.missingWord ws.length)) ∨
    (∃ i, encode i <+: ws ∧ decode ws = .ok i) := by
  rcases decodeFrom_cases (readWord ws) .unknownOpcode with ⟨e, h0, he⟩ | ⟨w, h0, hw, he⟩ | ⟨op, h0, hop⟩
  · obtain ⟨hlen, rfl⟩ := readWord_error_iff.mp h0
    exact .inl ⟨List.length_eq_zero_iff.mp (Nat.le_zero.mp hlen), he⟩
  · exact .inr (.inl ⟨w, readWord_zero_ok_iff.mp h0, Opcode.ofWord_eq_none_iff.mp hw, he⟩)
  · have hhead := readWord_zero_ok_iff.mp h0
    cases hdec : decodeOperands (readWord ws) op with
    | ok i =>
      have hi : decode ws = .ok i := hop.trans hdec
      exact .inr (.inr (.inr ⟨i, decode_ok_iff_prefix.mp hi, hi⟩))
    | error e =>
      obtain ⟨k, _, hk, hread⟩ := decodeOperands_error hdec
      have hlen : ws.length ≤ op.operandCount := (readWord_error_iff.mp hread).1.trans hk
      exact .inr (.inr (.inl ⟨op, hhead, hlen, decode_of_length_le hhead hlen⟩))

theorem decode_unknownOpcode_iff {ws : List Word} {w : Word} :
    decode ws = .error (.unknownOpcode w) ↔ ws.head? = some w ∧ 9 ≤ w.toNat := by
  refine ⟨fun h => ?_, fun ⟨hhead, hw⟩ => decode_of_unknown_head hhead hw⟩
  rcases decode_cases ws with ⟨_, hd⟩ | ⟨u, hhead, hu, hd⟩ | ⟨op, _, _, hd⟩ | ⟨i, _, hd⟩
  · cases hd.symm.trans h
  · cases hd.symm.trans h
    exact ⟨hhead, hu⟩
  · cases hd.symm.trans h
  · cases hd.symm.trans h

theorem decode_missingWord_iff {ws : List Word} {k : Nat} :
    decode ws = .error (.missingWord k) ↔
      k = ws.length ∧ (k = 0 ∨ ∃ op : Opcode, ws.head? = some op.toWord ∧ k ≤ op.operandCount) := by
  constructor
  · intro h
    rcases decode_cases ws with ⟨rfl, hd⟩ | ⟨u, _, _, hd⟩ | ⟨op, hhead, hlen, hd⟩ | ⟨i, _, hd⟩
    · cases hd.symm.trans h
      exact ⟨rfl, .inl rfl⟩
    · cases hd.symm.trans h
    · cases hd.symm.trans h
      exact ⟨rfl, .inr ⟨op, hhead, hlen⟩⟩
    · cases hd.symm.trans h
  · rintro ⟨rfl, hempty | ⟨op, hhead, hlen⟩⟩
    · obtain rfl := List.length_eq_zero_iff.mp hempty
      rfl
    · exact decode_of_length_le hhead hlen

/-- Settles O11, from the words a successful decode reads. -/
theorem decodeAndEncodeAgree : Obligations.DecodeAndEncodeAgree :=
  ⟨decode_encode_append, fun _ _ => decode_ok_iff_prefix⟩

/-- Settles O12, from the cases of a decode. -/
theorem decodeFailsExactlyWhen : Obligations.DecodeFailsExactlyWhen :=
  ⟨fun _ _ => decode_unknownOpcode_iff, fun _ _ => decode_missingWord_iff⟩

/-- Settles O8. -/
theorem wholeWordSelectsOpcode : Obligations.WholeWordSelectsOpcode :=
  ⟨fun _ _ => Opcode.ofWord_eq_some_iff, fun _ => Opcode.ofWord_eq_none_iff,
    Opcode.ofWord_eq_none_iff.mpr (by decide), fun _ _ hw => decode_of_unknown_head rfl hw⟩

/-- Settles O9: each format is the definition's, and the lengths are those of the encoding's shape. -/
theorem encodingHasTheSpecsFormat : Obligations.EncodingHasTheSpecsFormat :=
  ⟨rfl, fun _ _ => rfl, fun _ _ => rfl, fun _ _ => rfl, fun _ _ => rfl, fun _ _ => rfl, fun _ => rfl, fun _ => rfl,
    rfl, encode_length, rfl⟩

/-- Settles O10: every sample but the last is the encoding of its instruction. -/
theorem sampleWordsDecode : Obligations.SampleWordsDecode :=
  ⟨decode_encode .halt, decode_encode .debugRegs, decode_encode (.setRegImm 4 5), decode_encode (.setRegReg 4 2),
    decode_encode (.addRegReg 4 5), decode_encode (.addRegImm 6 1), decode_encode (.cmpRegImm 6 55),
    decode_encode (.jumpNotEq 9), decode_encode (.jumpEq 9), fun _ => rfl, decode_of_unknown_head rfl (by decide)⟩

end Sys2Proof

namespace Sys2Proof.Machine

theorem Reg.index_toNat_lt (r : Reg) : r.index.toNat < 8 := by
  cases r <;> decide

theorem Reg.ofIndex_eq_some_iff {w : Word} {r : Reg} : Reg.ofIndex w = some r ↔ w = r.index :=
  ⟨Reg.ofIndex_eq_some, fun h => h ▸ Reg.ofIndex_index r⟩

theorem Reg.ofIndex_eq_none_iff {w : Word} : Reg.ofIndex w = none ↔ 8 ≤ w.toNat := by
  refine ⟨Reg.eight_le_of_ofIndex_eq_none, fun h => Option.eq_none_iff_forall_ne_some.mpr fun r hr => ?_⟩
  obtain rfl := Reg.ofIndex_eq_some hr
  exact absurd r.index_toNat_lt (Nat.not_lt.mpr h)

/-- Settles O7. -/
theorem indexWordNamesRegister : Obligations.IndexWordNamesRegister :=
  ⟨fun _ _ => Reg.ofIndex_eq_some_iff, fun _ => Reg.ofIndex_eq_none_iff, rfl⟩

end Sys2Proof.Machine
end

section
/-! A cycle on a program laid out as instructions (spec 30_encoding.md R70), and the idioms of the instruction set
(R85). -/

namespace Sys2Proof.Machine

/-- In a program of at most `2^64 - 1` words, the cycle finds the instruction that the words from pc on decode to. -/
theorem State.fetchDecode_of_decode_drop {s : State} {i : Instr} (hfit : s.programFits)
    (hdec : decode (s.program.drop (s.reg .pc).toNat) = .ok i) : s.fetchDecode = .ok i := by
  refine State.fetchDecode_ok_iff.mpr fun k w hw => State.fetch_ok_iff.mpr ?_
  have hword : s.program[(s.reg .pc).toNat + k]? = some w := by
    rw [← List.getElem?_drop]
    exact readWord_ok_iff.mp (decodeFrom_ok_iff.mp hdec k w hw)
  have hmax : s.program.length ≤ 2 ^ 64 - 1 := hfit
  have hlt := (List.getElem?_eq_some_iff.mp hword).1
  rwa [toNat_add_ofNat_of_lt (by omega)]

/-- Settles O15: from its first word on, the program decodes to the laid-out instruction. -/
theorem laidOutInstructionRuns : Obligations.LaidOutInstructionRuns := by
  intro s before i after hr hfit hprogram hpc
  have hdrop : s.program.drop (s.reg .pc).toNat = encode i ++ after.flatMap encode := by
    rw [hprogram, hpc, List.append_assoc, List.drop_left]
  have hdec : s.fetchDecode = .ok i :=
    State.fetchDecode_of_decode_drop hfit (hdrop ▸ decode_encode_append i _)
  refine ⟨step_of_ok hr hdec, ?_⟩
  rw [State.advancePc_pc_toNat hfit hdec, hpc, encode_length]

theorem exec_setRegImm_index (r : Reg) (imm : Word) (s : State) :
    exec (.setRegImm r.index imm) s = .next (s.setReg r imm) :=
  checkReg_index s r _

theorem exec_setRegReg_index (d r : Reg) (s : State) :
    exec (.setRegReg d.index r.index) s = .next (s.setReg d (s.reg r)) :=
  (checkReg_index s d _).trans (checkReg_index s r _)

theorem exec_addRegImm_index (r : Reg) (imm : Word) (s : State) :
    exec (.addRegImm r.index imm) s = .next (s.setReg .ac (s.reg r + imm)) :=
  checkReg_index s r _

/-- A write of pc after the PC advance leaves everything but pc as it was before the cycle. -/
theorem keptExcept_advancePc_setReg_pc (s : State) (i : Instr) (v : Word) :
    KeptExcept .pc s ((s.advancePc i).setReg .pc v) :=
  ⟨fun _ hq => (State.reg_setReg_other _ v hq).trans (State.advancePc_reg s i hq), rfl, fun _ => rfl, rfl, rfl⟩

/-- A move between registers whose source is read after the PC advance (R111). -/
theorem step_setRegReg {s : State} {d r : Reg} (hr : s.status = .running)
    (hi : s.fetchDecode = .ok (.setRegReg d.index r.index)) :
    ∃ t, step s = .next t ∧ t.reg d = (s.advancePc (.setRegReg d.index r.index)).reg r :=
  ⟨_, (step_of_ok hr hi).trans (exec_setRegReg_index d r _), State.reg_setReg_same _ d _⟩

theorem step_setRegReg_ac {s : State} {r : Reg} (hr : s.status = .running)
    (hi : s.fetchDecode = .ok (.setRegReg r.index Reg.ac.index)) :
    ∃ t, step s = .next t ∧ t.reg r = s.reg .ac :=
  step_setRegReg hr hi

/-- AddRegImm on a register and a move of ac back to it add the immediate to that register. -/
theorem step_addRegImm_step_setRegReg {s t : State} {r : Reg} {imm : Word} (hpc : r ≠ .pc) (hr : s.status = .running)
    (hadd : s.fetchDecode = .ok (.addRegImm r.index imm)) (ht : step s = .next t)
    (hmove : t.fetchDecode = .ok (.setRegReg r.index Reg.ac.index)) :
    ∃ u, step t = .next u ∧ u.reg r = s.reg r + imm := by
  have hsum : t = (s.advancePc (.addRegImm r.index imm)).setReg .ac (s.reg r + imm) := by
    rw [← State.advancePc_reg s (.addRegImm r.index imm) hpc]
    exact Host.Outcome.next.inj (ht.symm.trans ((step_of_ok hr hadd).trans (exec_addRegImm_index r imm _)))
  have hrunning : t.status = .running := by rw [hsum]; exact hr
  have hac : t.reg .ac = s.reg r + imm := by rw [hsum, State.reg_setReg_same]
  rw [← hac]
  exact step_setRegReg_ac hrunning hmove

theorem add_allOnes_eq_sub_one (v : Word) : v + 0xFFFFFFFFFFFFFFFF = v - 1 :=
  (BitVec.sub_eq_add_neg v 1).symm

/-- Settles O40, from the rules of the three instructions on named registers. -/
theorem idiomsDoWhatTheyAreUsedFor : Obligations.IdiomsDoWhatTheyAreUsedFor := by
  refine ⟨fun s target hr hi => ?jump, fun s r => step_setRegReg_ac,
    fun s t r => step_addRegImm_step_setRegReg, fun s t r hpc hr hadd ht hmove => ?decrement,
    fun s r => step_setRegReg⟩
  case jump =>
    exact ⟨_, (step_of_ok hr hi).trans (exec_setRegImm_index .pc target _), State.reg_setReg_same _ .pc target,
      keptExcept_advancePc_setReg_pc s _ target⟩
  case decrement =>
    rw [← add_allOnes_eq_sub_one]
    exact step_addRegImm_step_setRegReg hpc hr hadd ht hmove

end Sys2Proof.Machine
end

section
/-! The cycle (spec 40_cycle.md): what fetch and decode answer, that every step has a next state, which fault ends a
run, and the pc a cycle ends with (R95). -/

namespace Sys2Proof.Machine

/-- An opcode word that cannot be read is the fault of fetch and decode (R91). -/
theorem State.fetchDecode_of_fetch_error {s : State} {f : Fault} (h : s.fetch (s.reg .pc) = .error f) :
    s.fetchDecode = .error f := by
  simp [State.fetchDecode, decodeFrom, h]

/-- The opcode is resolved, and the program ends just before the k-th operand word: that word's address is the fault
of fetch and decode (R93). Every address up to it is an ordinary sum, so the operand words before it are read. -/
theorem State.fetchDecode_of_missing_operand {s : State} {op : Opcode} {k : Nat} (hfit : s.programFits)
    (hop : s.fetch (s.reg .pc) = .ok op.toWord) (hpos : 1 ≤ k) (hcount : k ≤ op.operandCount)
    (hend : s.program.length = (s.reg .pc).toNat + k) :
    s.fetchDecode = .error (.programAddressOutOfRange (s.reg .pc + BitVec.ofNat 64 k)) := by
  have hmax : s.program.length ≤ 2 ^ 64 - 1 := hfit
  have haddr : ∀ j, j ≤ k → (s.reg .pc + BitVec.ofNat 64 j).toNat = (s.reg .pc).toNat + j := fun j hj =>
    toNat_add_ofNat_of_lt (by omega)
  have hbefore : ∀ j, 1 ≤ j → j < k → ∃ w, s.fetch (s.reg .pc + BitVec.ofNat 64 j) = .ok w := fun j _ hj => by
    have hlt : (s.reg .pc + BitVec.ofNat 64 j).toNat < s.program.length := by have := haddr j hj.le; omega
    exact ⟨_, State.fetch_ok_iff.mpr (List.getElem?_eq_getElem hlt)⟩
  have hmissing : s.fetch (s.reg .pc + BitVec.ofNat 64 k)
      = .error (.programAddressOutOfRange (s.reg .pc + BitVec.ofNat 64 k)) :=
    State.fetch_error_iff.mpr ⟨by rw [haddr k le_rfl, hend], rfl⟩
  exact (decodeFrom_of_opcode (op := op) (by simpa using hop)).trans
    (decodeOperands_of_first_error hpos hcount hbefore hmissing)

/-- Settles O23: a cycle answers its fault or the one effect of its instruction. -/
theorem everyStepHasANextState : Obligations.EveryStepHasANextState := by
  intro s
  rcases step_cases s with ⟨_, h⟩ | ⟨f, _, _, h⟩ | ⟨i, _, _, h⟩
  · exact ⟨_, h⟩
  · exact ⟨_, h⟩
  · obtain ⟨e, _, hexec⟩ := exec_hasEffect i (s.advancePc i)
    exact ⟨_, h.trans (hexec _ fun _ _ => rfl)⟩

theorem step_program {s t : State} (ht : step s = .next t) : t.program = s.program := by
  rcases step_cases s with ⟨_, h⟩ | ⟨f, _, _, h⟩ | ⟨i, _, _, h⟩
  · obtain rfl := Host.Outcome.next.inj (h.symm.trans ht)
    rfl
  · obtain rfl := Host.Outcome.next.inj (h.symm.trans ht)
    rfl
  · obtain ⟨e, _, rfl⟩ := exec_effect (h.symm.trans ht)
    exact Effect.apply_program e _

theorem step_debug_prefix {s t : State} (ht : step s = .next t) : s.debug <+: t.debug := by
  obtain ⟨events, hevents, _⟩ := debugStreamIsWriteOnly s t ht
  exact ⟨events, hevents.symm⟩

/-- Settles O51, by induction on the number of steps: each has a next state and keeps the invariant. -/
theorem everyRunKeepsTheInvariant : Obligations.EveryRunKeepsTheInvariant := by
  intro k
  induction k with
  | zero => exact fun s hs => ⟨s, rfl, hs, rfl, List.prefix_rfl⟩
  | succ k ih =>
    intro s hs
    obtain ⟨u, hu⟩ := everyStepHasANextState s
    obtain ⟨t, hrun, hinv, hprogram, hdebug⟩ := ih u (stepKeepsTheInvariant s u hs hu)
    exact ⟨t, (run_succ_of_next (M := core) k hu).trans hrun, hinv, hprogram.trans (step_program hu),
      (step_debug_prefix hu).trans hdebug⟩

/-- Settles O16: the decoded instruction lies inside the program, so its end is an ordinary sum. -/
theorem decodeAdvancesPcWithoutWrapping : Obligations.DecodeAdvancesPcWithoutWrapping := by
  intro s i hr hfit hi
  have hpc := State.advancePc_pc_toNat hfit hi
  have hle := State.pc_add_size_le hfit hi
  rw [Instr.size, ← Nat.add_assoc] at hpc hle
  exact ⟨step_of_ok hr hi, hpc, hle, fun _ hq => State.advancePc_reg s i hq, rfl, fun _ => rfl, rfl, rfl⟩

/-- Settles O19. -/
theorem missingOperandFaults : Obligations.MissingOperandFaults :=
  fun _ _ _ hr hfit hop hpos hcount hend =>
    step_of_error hr (State.fetchDecode_of_missing_operand hfit hop hpos hcount hend)

/-- Settles O17. -/
theorem fetchPastTheEndFaults : Obligations.FetchPastTheEndFaults :=
  fun _ hr hend => step_of_error hr (State.fetchDecode_of_fetch_error (State.fetch_error_iff.mpr ⟨hend, rfl⟩))

/-- Settles O14: the words from pc on decode as fetch and decode do. -/
theorem stepRunsTheDecodedInstruction : Obligations.StepRunsTheDecodedInstruction := by
  intro s i hr hfit hdec
  have hsum : s.reg .pc + BitVec.ofNat 64 i.size = s.reg .pc + 1 + BitVec.ofNat 64 i.opcode.operandCount := by
    rw [Instr.size, BitVec.ofNat_add, ← BitVec.add_assoc]
    rfl
  rw [step_of_ok hr (State.fetchDecode_of_decode_drop hfit hdec), State.advancePc, hsum]

/-- An instruction whose register operands are all valid, and which is not JumpEq, raises no fault (R165). -/
theorem Effect.not_allowed_fault {i : Instr} {s : State} {f : Fault} (hwf : i.wellFormed = true)
    (hjump : i.opcode ≠ .jumpEq) : ¬ (Effect.fault f).Allowed i s := by
  rintro (⟨w, hw, hbad, _⟩ | ⟨addr, rfl, _⟩)
  · have hvalid : w.toNat < 8 := of_decide_eq_true (List.all_eq_true.mp hwf w hw)
    exact absurd (Reg.ofIndex_eq_none_iff.mp hbad) (Nat.not_le.mpr hvalid)
  · exact hjump rfl

/-- Settles O26: of the effects left to such an instruction, only Halt's changes the status. -/
theorem onlyHaltStops : Obligations.OnlyHaltStops := by
  intro i s hwf hjump
  by_cases hi : i = .halt
  · subst hi
    exact ⟨_, rfl, rfl⟩
  · obtain ⟨e, he, hexec⟩ := exec_hasEffect i s
    refine ⟨_, hexec s fun _ _ => rfl, ?_⟩
    rw [if_neg hi]
    cases e with
    | keep | write | emit => rfl
    | stop => exact absurd he hi
    | fault => exact absurd he (Effect.not_allowed_fault hwf hjump)

/-- The two ways a cycle ends in a fault: fetch or decode raises it from the state as it is, or the instruction raises
it from the state with pc advanced. -/
theorem step_faulted_cases {s t : State} {f : Fault} (hr : s.status = .running) (ht : step s = .next t)
    (hf : t.status = .faulted f) :
    (s.fetchDecode = .error f ∧ t = s.withFault f) ∨
    (∃ i, s.fetchDecode = .ok i ∧ (Effect.fault f).Allowed i (s.advancePc i) ∧
      t = (s.advancePc i).withFault f) := by
  rcases step_cases s with ⟨hne, _⟩ | ⟨g, _, hg, h⟩ | ⟨i, _, hi, h⟩
  · exact absurd hr hne
  · obtain rfl := Host.Outcome.next.inj (h.symm.trans ht)
    obtain rfl := RunStatus.faulted.inj hf
    exact .inl ⟨hg, rfl⟩
  · obtain ⟨e, he, rfl⟩ := exec_effect (h.symm.trans ht)
    cases e with
    | fault g =>
      obtain rfl := RunStatus.faulted.inj hf
      exact .inr ⟨i, hi, he, rfl⟩
    | keep | write | emit => exact absurd (hr.symm.trans hf) (by simp)
    | stop => cases hf

/-- Settles O22: the faults of fetch and decode leave pc, those of execute stand after its advance. -/
theorem faultEndsTheRun : Obligations.FaultEndsTheRun := by
  intro s t f hr ht hf
  refine ⟨by simp [State.outcome, hf], noCycleOutsideRunning t (by simp [hf]), ?_⟩
  rcases step_faulted_cases hr ht hf with ⟨hdec, rfl⟩ | ⟨i, hi, he, rfl⟩
  · refine ⟨fun _ _ => rfl, fun _ => rfl, rfl, rfl, ?_⟩
    rcases State.fetchDecode_error hdec with ⟨_, rfl, _⟩ | ⟨_, _, rfl, _⟩
    · rfl
    · rfl
  · refine ⟨fun _ hq => State.advancePc_reg s i hq, fun _ => rfl, rfl, rfl, ?_⟩
    rcases he with ⟨_, _, _, rfl⟩ | ⟨_, _, rfl⟩
    · exact ⟨i, hi, rfl⟩
    · exact ⟨i, hi, rfl⟩

theorem State.nextPc_of_error {s : State} {f : Fault} (hf : s.fetchDecode = .error f) : s.nextPc = s.reg .pc := by
  simp [State.nextPc, hf]

/-- The row "otherwise" of R95's table: an instruction that does not write pc leaves the advanced pc. -/
theorem State.nextPc_of_not_mayWrite {s : State} {i : Instr} (hi : s.fetchDecode = .ok i)
    (hpc : ¬ MayWrite i (s.advancePc i) .pc) : s.nextPc = (s.advancePc i).reg .pc := by
  cases i with
  | halt | addRegReg | addRegImm | cmpRegImm | jumpEq | debugRegs => simp [State.nextPc, hi]
  | setRegImm dst imm | setRegReg dst src =>
    have hdst : dst ≠ 0 := fun h => hpc h.symm
    simp only [State.nextPc, hi, if_neg hdst]
    rfl
  | jumpNotEq addr =>
    have hac : s.reg .ac = 1 := not_not.mp fun h => hpc ⟨rfl, h⟩
    simp only [State.nextPc, hi, if_pos hac]
    rfl

theorem State.nextPc_jumpNotEq_taken {s : State} {addr : Word} (hi : s.fetchDecode = .ok (.jumpNotEq addr))
    (hac : s.reg .ac ≠ 1) : s.nextPc = addr := by
  simp only [State.nextPc, hi, if_neg hac]

theorem State.nextPc_setRegImm_pc {s : State} {imm : Word} (hi : s.fetchDecode = .ok (.setRegImm Reg.pc.index imm)) :
    s.nextPc = imm := by
  simp only [State.nextPc, hi, if_pos (show Reg.pc.index = 0 from rfl)]

/-- A move to pc reads its source after the PC advance. -/
theorem State.nextPc_setRegReg_pc {s : State} {r : Reg}
    (hi : s.fetchDecode = .ok (.setRegReg Reg.pc.index r.index)) :
    s.nextPc = (s.advancePc (.setRegReg Reg.pc.index r.index)).reg r := by
  simp only [State.nextPc, hi, if_pos (show Reg.pc.index = 0 from rfl), Reg.ofIndex_index]
  exact (State.reg_setReg s .pc r _).symm

theorem State.nextPc_setRegReg_pc_of_bad_source {s : State} {src : Word}
    (hi : s.fetchDecode = .ok (.setRegReg Reg.pc.index src)) (hsrc : Reg.ofIndex src = none) :
    s.nextPc = (s.advancePc (.setRegReg Reg.pc.index src)).reg .pc := by
  simp only [State.nextPc, hi, if_pos (show Reg.pc.index = 0 from rfl), hsrc]
  rfl

/-- A move to a named register from an index word that names none raises the fault of that word (R111, R163). -/
theorem exec_setRegReg_of_bad_source {src : Word} (d : Reg) (s : State) (hsrc : Reg.ofIndex src = none) :
    exec (.setRegReg d.index src) s = .next (s.withFault (.registerIndexOutOfRange src)) := by
  simp [exec, execSetRegReg, checkRegs, checkReg, hsrc, State.raise]

/-- The rows of R95's table for the instructions that may write pc: a taken JumpNotEq, and a move to pc. -/
theorem nextPc_of_mayWrite {s t : State} {i : Instr} (hi : s.fetchDecode = .ok i)
    (hpc : MayWrite i (s.advancePc i) .pc) (ht : exec i (s.advancePc i) = .next t) : t.reg .pc = s.nextPc := by
  cases i with
  | halt | jumpEq | debugRegs => exact hpc.elim
  | addRegReg | addRegImm | cmpRegImm => cases hpc
  | jumpNotEq addr =>
    obtain ⟨-, hac⟩ := hpc
    obtain rfl := Host.Outcome.next.inj ((exec_jumpNotEq_taken addr hac).symm.trans ht)
    exact (State.nextPc_jumpNotEq_taken hi hac).symm
  | setRegImm dst imm =>
    obtain rfl : Reg.pc.index = dst := hpc
    obtain rfl := Host.Outcome.next.inj ((exec_setRegImm_index .pc imm _).symm.trans ht)
    exact (State.nextPc_setRegImm_pc hi).symm
  | setRegReg dst src =>
    obtain rfl : Reg.pc.index = dst := hpc
    cases hsrc : Reg.ofIndex src with
    | none =>
      obtain rfl := Host.Outcome.next.inj ((exec_setRegReg_of_bad_source .pc _ hsrc).symm.trans ht)
      exact (State.nextPc_setRegReg_pc_of_bad_source hi hsrc).symm
    | some r =>
      obtain rfl := Reg.ofIndex_eq_some hsrc
      obtain rfl := Host.Outcome.next.inj ((exec_setRegReg_index .pc r _).symm.trans ht)
      exact (State.nextPc_setRegReg_pc hi).symm

/-- Settles O20: a cycle faults in fetch or decode, writes pc in execute, or leaves it advanced. -/
theorem nextPcFollowsTheTable : Obligations.NextPcFollowsTheTable := by
  intro s t hr ht
  rcases step_cases s with ⟨hne, _⟩ | ⟨f, _, hf, h⟩ | ⟨i, _, hi, h⟩
  · exact absurd hr hne
  · obtain rfl := Host.Outcome.next.inj (h.symm.trans ht)
    exact (State.nextPc_of_error hf).symm
  · by_cases hpc : MayWrite i (s.advancePc i) .pc
    · exact nextPc_of_mayWrite hi hpc (h.symm.trans ht)
    · obtain ⟨e, he, rfl⟩ := exec_effect (h.symm.trans ht)
      rw [State.nextPc_of_not_mayWrite hi hpc]
      exact not_not.mp fun hne => hpc (he.mayWrite_of_reg_ne hne)

end Sys2Proof.Machine
end

section
/-! The moves (spec 41_move.md): SetRegImm and SetRegReg. -/

namespace Sys2Proof.Machine

/-- The check of an index word of 8 or more is the fault of that word, whatever the rest of the rule (R96, R163). -/
theorem checkReg_of_eight_le {w : Word} (hw : 8 ≤ w.toNat) (s : State) (rest : Reg → StepResult) :
    checkReg s w rest = .next (s.withFault (.registerIndexOutOfRange w)) := by
  rcases checkReg_cases s w rest with ⟨_, hfault⟩ | ⟨r, rfl, _⟩
  · exact hfault
  · exact absurd r.index_toNat_lt (Nat.not_lt.mpr hw)

/-- The frame of a register write: every other register and everything else stays. -/
theorem keptExcept_setReg (s : State) (r : Reg) (v : Word) : KeptExcept r s (s.setReg r v) :=
  ⟨fun _ hq => State.reg_setReg_other s v hq, rfl, fun _ => rfl, rfl, rfl⟩

/-- Settles O29: dst names a register, which is written, or the check of dst faults. -/
theorem setRegImmWritesItsDestination : Obligations.SetRegImmWritesItsDestination := by
  refine ⟨fun _ _ => rfl, fun s r imm => ?write, fun s dst imm hdst => ?badDst, missingOperandFaults .setRegImm⟩
  case write =>
    exact ⟨_, exec_setRegImm_index r imm s, State.reg_setReg_same s r imm, keptExcept_setReg s r imm⟩
  case badDst => exact checkReg_of_eight_le hdst s _

/-- Settles O30: the check of dst comes first, so a bad src is reported only where dst names a register. -/
theorem setRegRegCopiesARegister : Obligations.SetRegRegCopiesARegister := by
  refine ⟨fun _ _ => rfl, fun s d r => ?copy, fun s dst src hdst => ?badDst, fun s d src hsrc => ?badSrc,
    missingOperandFaults .setRegReg⟩
  case copy =>
    exact ⟨_, exec_setRegReg_index d r s, State.reg_setReg_same s d _, keptExcept_setReg s d _⟩
  case badDst => exact checkReg_of_eight_le hdst s _
  case badSrc => exact exec_setRegReg_of_bad_source d s (Reg.ofIndex_eq_none_iff.mpr hsrc)

end Sys2Proof.Machine
end

section
/-! The additions (spec 42_alu.md): the ALU's sum, AddRegReg and AddRegImm. -/

namespace Sys2Proof.Machine

/-- Settles O31: the sum of two words of 64 bits, read as a number. -/
theorem additionIsModulo : Obligations.AdditionIsModulo := fun u v => BitVec.toNat_add u v

theorem exec_addRegReg_index (a b : Reg) (s : State) :
    exec (.addRegReg a.index b.index) s = .next (s.setReg .ac (add64 (s.reg a) (s.reg b))) :=
  (checkReg_index s a _).trans (checkReg_index s b _)

/-- The write of a sum to ac, as the two additions share it: ac as a number, and the frame (R120). -/
theorem setReg_ac_add64 (s : State) (u v : Word) :
    ((s.setReg .ac (add64 u v)).reg .ac).toNat = (u.toNat + v.toNat) % 2 ^ 64 ∧
      KeptExcept .ac s (s.setReg .ac (add64 u v)) := by
  rw [State.reg_setReg_same]
  exact ⟨additionIsModulo u v, keptExcept_setReg s .ac _⟩

/-- Settles O32: the check of a comes first, so a bad b is reported only where a names a register. -/
theorem addRegRegWritesTheSumToAc : Obligations.AddRegRegWritesTheSumToAc := by
  refine ⟨fun _ _ => rfl, fun s a b => ?sum, fun s a b ha => ?badA, fun s a b hb => ?badB,
    missingOperandFaults .addRegReg⟩
  case sum => exact ⟨_, exec_addRegReg_index a b s, setReg_ac_add64 s (s.reg a) (s.reg b)⟩
  case badA => exact checkReg_of_eight_le ha s _
  case badB => exact (checkReg_index s a _).trans (checkReg_of_eight_le hb s _)

/-- Settles O33: a names a register, which is added to the immediate, or the check of a faults. -/
theorem addRegImmWritesTheSumToAc : Obligations.AddRegImmWritesTheSumToAc := by
  refine ⟨fun _ _ => rfl, fun s a imm => ?sum, fun s a imm ha => ?badA, missingOperandFaults .addRegImm⟩
  case sum => exact ⟨_, exec_addRegImm_index a imm s, setReg_ac_add64 s (s.reg a) imm⟩
  case badA => exact checkReg_of_eight_le ha s _

end Sys2Proof.Machine
end

section
/-! Compare and branch (spec 43_compare_branch.md): the three-way compare, CmpRegImm, JumpEq and JumpNotEq, and the
JumpNotEq to its own address, whose cycle leaves the state as it was. -/

namespace Sys2Proof.Machine

theorem compare3_of_gt {u v : Word} (h : v.toNat < u.toNat) : compare3 u v = 0 := if_pos h

theorem compare3_of_eq {u v : Word} (h : u.toNat = v.toNat) : compare3 u v = 1 :=
  (if_neg (Nat.not_lt.mpr h.le)).trans (if_pos h)

theorem compare3_of_lt {u v : Word} (h : u.toNat < v.toNat) : compare3 u v = 2 :=
  (if_neg (Nat.not_lt.mpr h.le)).trans (if_neg h.ne)

/-- Settles O34. -/
theorem compareIsUnsignedThreeWay : Obligations.CompareIsUnsignedThreeWay :=
  fun _ _ => ⟨compare3_of_gt, compare3_of_eq, compare3_of_lt⟩

theorem exec_cmpRegImm_index (r : Reg) (imm : Word) (s : State) :
    exec (.cmpRegImm r.index imm) s = .next (s.setReg .ac (compare3 (s.reg r) imm)) :=
  checkReg_index s r _

/-- Settles O35: reg names a register, whose compare with the immediate is written to ac, or the check of reg faults. -/
theorem cmpRegImmWritesTheConditionCode : Obligations.CmpRegImmWritesTheConditionCode := by
  refine ⟨fun _ _ => rfl, fun s r imm => ?code, fun s reg imm hreg => ?badReg, missingOperandFaults .cmpRegImm⟩
  case code =>
    have hac := State.reg_setReg_same s .ac (compare3 (s.reg r) imm)
    exact ⟨_, exec_cmpRegImm_index r imm s, fun h => hac.trans (compare3_of_gt h),
      fun h => hac.trans (compare3_of_eq h), fun h => hac.trans (compare3_of_lt h), keptExcept_setReg s .ac _⟩
  case badReg => exact checkReg_of_eight_le hreg s _

/-- Settles O36, from the two cases of the branch test. -/
theorem jumpNotEqBranchesUnlessAcIsOne : Obligations.JumpNotEqBranchesUnlessAcIsOne := by
  refine ⟨fun _ => rfl, fun s addr hac => ?taken, fun s addr hac => ?notTaken, missingOperandFaults .jumpNotEq⟩
  case taken =>
    exact ⟨_, exec_jumpNotEq_taken addr hac, State.reg_setReg_same s .pc addr, keptExcept_setReg s .pc addr⟩
  case notTaken => exact exec_jumpNotEq_notTaken addr hac

theorem exec_jumpEq (addr : Word) (s : State) :
    exec (.jumpEq addr) s = .next (s.withFault (.unsupportedOpcode 6)) := rfl

/-- Settles O37: in a cycle the fault is raised from the state with pc advanced by the instruction's two words. -/
theorem jumpEqIsUnsupported : Obligations.JumpEqIsUnsupported := by
  refine ⟨fun _ => rfl, fun s addr => exec_jumpEq addr s, fun s addr hr hi => ?cycle, missingOperandFaults .jumpEq⟩
  case cycle =>
    exact ⟨_, (step_of_ok hr hi).trans (exec_jumpEq addr _), rfl, State.advancePc_pc s (.jumpEq addr),
      fun _ hq => State.advancePc_reg s (.jumpEq addr) hq⟩

/-- The PC advance touches pc alone, so writing the old pc back undoes it (R94). -/
theorem State.advancePc_setReg_pc_self (s : State) (i : Instr) : (s.advancePc i).setReg .pc (s.reg .pc) = s := by
  refine State.ext_of_reg (fun r => ?_) rfl rfl rfl rfl
  by_cases hr : r = .pc
  · rw [hr, State.reg_setReg_same]
  · rw [State.reg_setReg_other _ _ hr, State.advancePc_reg s i hr]

/-- The two words of a JumpNotEq at pc are all that its decode reads (R71, R93). -/
theorem State.fetchDecode_of_fetch_jumpNotEq {s : State} {addr : Word}
    (hop : s.fetch (s.reg .pc) = .ok Opcode.jumpNotEq.toWord) (haddr : s.fetch (s.reg .pc + 1) = .ok addr) :
    s.fetchDecode = .ok (.jumpNotEq addr) := by
  refine State.fetchDecode_ok_iff.mpr fun k w hw => ?_
  match k, lt_size_of_encode_getElem? hw with
  | 0, _ =>
    obtain rfl : Opcode.jumpNotEq.toWord = w := Option.some.inj hw
    simpa using hop
  | 1, _ =>
    obtain rfl : addr = w := Option.some.inj hw
    exact haddr

/-- A taken JumpNotEq to its own address leaves the state as it was (R132's corner case). -/
theorem step_jumpNotEq_self {s : State} (hr : s.status = .running)
    (hi : s.fetchDecode = .ok (.jumpNotEq (s.reg .pc))) (hac : s.reg .ac ≠ 1) : step s = .next s := by
  have hac' : (s.advancePc (.jumpNotEq (s.reg .pc))).reg .ac ≠ 1 := by
    rwa [State.advancePc_reg s _ (by decide)]
  rw [step_of_ok hr hi, exec_jumpNotEq_taken _ hac', State.advancePc_setReg_pc_self]

/-- A state that a step answers again is answered by every number of steps. -/
theorem run_of_step_self {M : Host.Core} {s : M.State} (h : M.step s = .next s) (k : Nat) : M.run k s = .next s := by
  induction k with
  | zero => rfl
  | succ k ih => exact (run_succ_of_next k h).trans ih

/-- Settles O39: one cycle answers the same state. -/
theorem jumpToItselfNeverEnds : Obligations.JumpToItselfNeverEnds :=
  fun _ hr hop haddr hac =>
    run_of_step_self (M := core) (step_jumpNotEq_self hr (State.fetchDecode_of_fetch_jumpNotEq hop haddr) hac)

end Sys2Proof.Machine
end

section
/-! System (spec 44_system.md): DebugRegs and Halt, and that a run ends with Ok at a Halt alone. -/

namespace Sys2Proof.Machine

theorem exec_debugRegs (s : State) : exec .debugRegs s = .next (s.emit s.dump) := rfl

theorem exec_halt (s : State) : exec .halt s = .next (s.afterSignal .stop) := rfl

theorem State.fetchDecode_of_fetch_halt {s : State} (h : s.fetch (s.reg .pc) = .ok Opcode.halt.toWord) :
    s.fetchDecode = .ok .halt :=
  decodeFrom_of_opcode (op := .halt) (by simpa using h)

/-- Settles O41: the event holds the registers DebugRegs executes on, which in a cycle are those after the PC advance. -/
theorem debugRegsEmitsTheRegisters : Obligations.DebugRegsEmitsTheRegisters := by
  refine ⟨rfl, fun s => ?execute, fun s hr h8 => ?cycle⟩
  case execute =>
    exact ⟨_, exec_debugRegs s, State.emit_debug s s.dump, State.emit_reg s s.dump, fun _ => rfl,
      State.emit_status s s.dump, State.emit_program s s.dump⟩
  case cycle =>
    have hstep := (step_of_ok hr (State.fetchDecode_of_fetch_debugRegs h8)).trans (exec_debugRegs _)
    exact ⟨_, hstep, hr, State.advancePc_pc s .debugRegs, fun _ hq => State.advancePc_reg s .debugRegs hq,
      step_debug_of_debugRegs hr h8 hstep⟩

/-- A cycle that ends the run with Ok decoded a Halt: a fault ends it with Err, and every other effect lets it go on
(R97, R171). -/
theorem fetchDecode_of_step_halted {s t : State} (hr : s.status = .running) (ht : step s = .next t)
    (hhalted : t.status = .halted) : s.fetchDecode = .ok .halt := by
  rcases step_cases s with ⟨hne, _⟩ | ⟨f, _, _, h⟩ | ⟨i, _, hi, h⟩
  · exact absurd hr hne
  · obtain rfl := Host.Outcome.next.inj (h.symm.trans ht)
    cases hhalted
  · obtain ⟨e, he, rfl⟩ := exec_effect (h.symm.trans ht)
    cases e with
    | stop =>
      obtain rfl : i = .halt := he
      exact hi
    | keep | write | emit => exact absurd (hr.symm.trans hhalted) (by simp)
    | fault => cases hhalted

/-- Settles O42: stop changes the status alone, and a cycle that stops has the opcode word of Halt at pc. -/
theorem haltStopsTheRun : Obligations.HaltStopsTheRun := by
  refine ⟨rfl, fun s => ?execute, fun s hr h0 => ?cycle, fun s t hr ht hhalted => ?onlyHalt⟩
  case execute =>
    exact ⟨_, exec_halt s, State.afterSignal_stop_status s, State.afterSignal_reg s .stop, fun _ => rfl,
      State.afterSignal_program s .stop, State.afterSignal_debug s .stop⟩
  case cycle =>
    exact ⟨_, (step_of_ok hr (State.fetchDecode_of_fetch_halt h0)).trans (exec_halt _), rfl,
      State.advancePc_pc s .halt, fun _ hq => State.advancePc_reg s .halt hq⟩
  case onlyHalt =>
    exact State.fetch_pc_of_fetchDecode (fetchDecode_of_step_halted hr ht hhalted)

end Sys2Proof.Machine
end

section
/-! Exceptions (spec 60_exceptions.md): the host's moves and the outcome of a run (R171, R173), the faults of decode and of
execute said once (R161 to R165), and that the first fault of R166's list is the one a cycle raises. -/

namespace Sys2Proof

/-- The opcodes with a first operand word are 1 to 7 (R74). -/
theorem Opcode.one_le_operandCount_iff (op : Opcode) :
    1 ≤ op.operandCount ↔ 1 ≤ op.toWord.toNat ∧ op.toWord.toNat ≤ 7 := by
  cases op <;> decide

/-- The opcodes with a second operand word are 1 to 5 (R74). -/
theorem Opcode.two_le_operandCount_iff (op : Opcode) :
    2 ≤ op.operandCount ↔ 1 ≤ op.toWord.toNat ∧ op.toWord.toNat ≤ 5 := by
  cases op <;> decide

theorem Opcode.operandCount_le_two (op : Opcode) : op.operandCount ≤ 2 := by
  cases op <;> decide

/-- Only Halt has the opcode word 0 (R79). -/
theorem Instr.opcode_toWord_eq_zero_iff (i : Instr) : i.opcode.toWord.toNat = 0 ↔ i = .halt := by
  cases i <;> simp [Instr.opcode, Opcode.toWord]

/-- An operand word that names no register (R77, R163). -/
def badRegIndex (o : Word) : Bool := decide (8 ≤ o.toNat)

@[simp] theorem badRegIndex_iff {o : Word} : badRegIndex o = true ↔ 8 ≤ o.toNat := decide_eq_true_iff

theorem badRegIndex_eq_not_valid (o : Word) : badRegIndex o = !validRegIndex o := by
  rw [badRegIndex, validRegIndex, ← decide_not]
  simp [Config.numRegisters]

/-- The first register operand in word order that names no register (R96, R163). -/
def Instr.firstBadOperand (i : Instr) : Option Word := i.regOperands.find? badRegIndex

/-- An instruction is well-formed exactly when it has no bad operand (R77). -/
theorem Instr.firstBadOperand_eq_none_iff {i : Instr} : i.firstBadOperand = none ↔ i.wellFormed = true := by
  simp [Instr.firstBadOperand, Instr.wellFormed, badRegIndex_eq_not_valid]

end Sys2Proof

namespace Sys2Proof.Machine

/-- Settles O3, from the two cases of the host's move. -/
theorem runStartTurnedAway : Obligations.RunStartTurnedAway := by
  intro s p
  unfold State.startRun
  split
  case isTrue hturned => exact iff_of_true rfl hturned
  case isFalse hfree => exact iff_of_false (Option.some_ne_none _) hfree

/-- Once a run has an outcome, Ok or Err, the registers can be read out (R43, R171). -/
theorem State.readout_of_outcome {s : State} {o : RunOutcome} (h : s.outcome = some o) : s.readout = some s.regs := by
  rw [State.readout, h, Option.map_some]

/-- Settles O4, by the four values of the status. -/
theorem runOutcomeFollowsStatus : Obligations.RunOutcomeFollowsStatus := by
  intro s
  refine ⟨?ok, fun f => ?err, fun hr => by rw [State.outcome, hr], fun o => State.readout_of_outcome⟩
  case ok => cases hs : s.status <;> simp [State.outcome, hs]
  case err => cases hs : s.status <;> simp [State.outcome, hs]

/-- An opcode word of 9 or more is the fault of fetch and decode, before any operand is read (R92, R161). -/
theorem State.fetchDecode_of_unknown {s : State} {w : Word} (h : s.fetch (s.reg .pc) = .ok w) (hw : 9 ≤ w.toNat) :
    s.fetchDecode = .error (.unknownOpcode w) := by
  simp [State.fetchDecode, decodeFrom, h, Opcode.ofWord_eq_none_iff.mpr hw]

/-- Settles O18. -/
theorem unknownOpcodeFaults : Obligations.UnknownOpcodeFaults :=
  fun _ _ hr hfetch hw => step_of_error hr (State.fetchDecode_of_unknown hfetch hw)

/-- The check of one operand that is bad raises the fault of that operand. -/
theorem checkReg_of_find? {o w : Word} (h : [o].find? badRegIndex = some w) (s : State)
    (rest : Reg → StepResult) : checkReg s o rest = .next (s.withFault (.registerIndexOutOfRange w)) := by
  have hbad := badRegIndex_iff.mp (List.find?_some h)
  obtain rfl := List.mem_singleton.mp (List.mem_of_find?_eq_some h)
  exact checkReg_of_eight_le hbad s rest

/-- The check of two operands raises the fault of the first bad one in word order (R96). -/
theorem checkRegs_of_find? {o p w : Word} (h : [o, p].find? badRegIndex = some w) (s : State)
    (rest : Reg → Reg → StepResult) :
    checkRegs s o p rest = .next (s.withFault (.registerIndexOutOfRange w)) := by
  rcases checkReg_cases s o fun r => checkReg s p fun q => rest r q with ⟨hnone, hfault⟩ | ⟨r, rfl, hrest⟩
  · rw [List.find?_cons_of_pos (badRegIndex_iff.mpr (Reg.ofIndex_eq_none_iff.mp hnone))] at h
    obtain rfl := Option.some.inj h
    exact hfault
  · have hvalid : ¬ badRegIndex r.index = true := mt badRegIndex_iff.mp (Nat.not_le.mpr r.index_toNat_lt)
    rw [List.find?_cons_of_neg hvalid] at h
    exact hrest.trans (checkReg_of_find? h s _)

/-- Settles O25, by instruction: it checks no register operand, one, or two. -/
theorem badRegisterIndexFaults : Obligations.BadRegisterIndexFaults := by
  intro i s w h
  cases i with
  | halt | jumpEq | jumpNotEq | debugRegs => cases h
  | setRegImm | addRegImm | cmpRegImm => exact checkReg_of_find? h s _
  | setRegReg | addRegReg => exact checkRegs_of_find? h s _

/-- The fault an instruction raises in execute: of its first bad register operand, or JumpEq's own (R163 to R165). -/
def executeFault (i : Instr) : Option Fault :=
  (i.firstBadOperand.map .registerIndexOutOfRange).or
    (if i.opcode = .jumpEq then some (.unsupportedOpcode 6) else none)

/-- Execute raises the fault of the instruction, whatever the state. -/
theorem exec_of_executeFault {i : Instr} {f : Fault} (h : executeFault i = some f) (s : State) :
    exec i s = .next (s.withFault f) := by
  cases hbad : i.firstBadOperand with
  | some w =>
    obtain rfl : .registerIndexOutOfRange w = f := by simpa [executeFault, hbad] using h
    exact badRegisterIndexFaults i s w hbad
  | none =>
    obtain ⟨hjump, rfl⟩ : i.opcode = .jumpEq ∧ .unsupportedOpcode 6 = f := by simpa [executeFault, hbad] using h
    cases i with
    | jumpEq addr => exact exec_jumpEq addr s
    | _ => cases hjump

/-- An instruction without a fault completes, and only Halt changes the status (R97). -/
theorem exec_of_executeFault_none {i : Instr} (h : executeFault i = none) (s : State) :
    ∃ t, exec i s = .next t ∧ t.status = if i = .halt then .halted else s.status := by
  obtain ⟨hgood, hjump⟩ : i.firstBadOperand = none ∧ i.opcode ≠ .jumpEq := by simpa [executeFault] using h
  exact onlyHaltStops i s (Instr.firstBadOperand_eq_none_iff.mp hgood) hjump

/-- Everything fetch and decode can answer, by where the program ends: before the opcode word, after an opcode word that is
no opcode, among the operand words, or after the instruction (R91 to R93). -/
theorem State.fetchDecode_cases {s : State} (hfit : s.programFits) :
    (s.program.length ≤ (s.reg .pc).toNat ∧ s.fetchDecode = .error (.programAddressOutOfRange (s.reg .pc))) ∨
    (∃ w, s.fetch (s.reg .pc) = .ok w ∧ 9 ≤ w.toNat ∧ s.fetchDecode = .error (.unknownOpcode w)) ∨
    (∃ (op : Opcode) (k : Nat), s.fetch (s.reg .pc) = .ok op.toWord ∧ 1 ≤ k ∧ k ≤ op.operandCount ∧
      s.program.length = (s.reg .pc).toNat + k ∧
      s.fetchDecode = .error (.programAddressOutOfRange (s.reg .pc + BitVec.ofNat 64 k))) ∨
    (∃ i, s.fetchDecode = .ok i) := by
  have hmax : s.program.length ≤ 2 ^ 64 - 1 := hfit
  rcases decodeFrom_cases (fun k => s.fetch (s.reg .pc + BitVec.ofNat 64 k)) .unknownOpcode with
    ⟨e, h0, he⟩ | ⟨w, h0, hw, he⟩ | ⟨op, h0, hop⟩
  · have hfetch : s.fetch (s.reg .pc) = .error e := by simpa using h0
    obtain ⟨hlen, rfl⟩ := State.fetch_error_iff.mp hfetch
    exact .inl ⟨hlen, he⟩
  · exact .inr (.inl ⟨w, by simpa using h0, Opcode.ofWord_eq_none_iff.mp hw, he⟩)
  · have hfetch : s.fetch (s.reg .pc) = .ok op.toWord := by simpa using h0
    have hpc := (List.getElem?_eq_some_iff.mp (State.fetch_ok_iff.mp hfetch)).1
    by_cases hend : s.program.length ≤ (s.reg .pc).toNat + op.operandCount
    · obtain ⟨k, hk⟩ := Nat.exists_eq_add_of_le hpc.le
      have hpos : 1 ≤ k := by omega
      have hcount : k ≤ op.operandCount := by omega
      exact .inr (.inr (.inl ⟨op, k, hfetch, hpos, hcount, hk,
        State.fetchDecode_of_missing_operand hfit hfetch hpos hcount hk⟩))
    · cases hdec : s.fetchDecode with
      | ok i => exact .inr (.inr (.inr ⟨i, rfl⟩))
      | error f =>
        obtain ⟨k, -, hk, hread⟩ := decodeOperands_error (hop.symm.trans hdec)
        have hpast := (State.fetch_error_iff.mp hread).1
        rw [toNat_add_ofNat_of_lt (by omega)] at hpast
        omega

theorem State.wordAfterPc_of_fetch {s : State} {k : Nat} {w : Word} (hk : (s.reg .pc).toNat + k < 2 ^ 64)
    (h : s.fetch (s.reg .pc + BitVec.ofNat 64 k) = .ok w) : s.wordAfterPc k = w.toNat := by
  rw [State.fetch_ok_iff, toNat_add_ofNat_of_lt hk] at h
  rw [State.wordAfterPc, List.getD_eq_getElem?_getD, h, Option.getD_some]

theorem State.wordAfterPc_zero_of_fetch {s : State} {w : Word} (h : s.fetch (s.reg .pc) = .ok w) :
    s.wordAfterPc 0 = w.toNat :=
  State.wordAfterPc_of_fetch (s.reg .pc).isLt (by simpa using h)

/-- The words after pc that R166's conditions speak of are those of the decoded instruction. -/
theorem State.wordAfterPc_of_encode {s : State} {i : Instr} {k : Nat} {w : Word} (hfit : s.programFits)
    (hi : s.fetchDecode = .ok i) (hw : (encode i)[k]? = some w) : s.wordAfterPc k = w.toNat := by
  have hmax : s.program.length ≤ 2 ^ 64 - 1 := hfit
  have hle := State.pc_add_size_le hfit hi
  have hk := lt_size_of_encode_getElem? hw
  exact State.wordAfterPc_of_fetch (by omega) (State.fetchDecode_ok_iff.mp hi k w hw)

theorem State.firstFault_of_pc_past_end {s : State} (h : s.program.length ≤ (s.reg .pc).toNat) :
    s.firstFault = some (.programAddressOutOfRange (s.reg .pc)) := by
  simp [State.firstFault, State.faultCandidates, h]

theorem State.firstFault_of_unknown {s : State} {w : Word} (h : s.fetch (s.reg .pc) = .ok w) (hw : 9 ≤ w.toNat) :
    s.firstFault = some (.unknownOpcode w) := by
  have hpc := (List.getElem?_eq_some_iff.mp (State.fetch_ok_iff.mp h)).1
  simp [State.firstFault, State.faultCandidates, State.wordAfterPc_zero_of_fetch h, hw, Nat.not_le.mpr hpc]

/-- Of the two operand words it is the first missing one that R166's list reports. -/
theorem State.firstFault_of_missing_operand {s : State} {op : Opcode} {k : Nat}
    (hop : s.fetch (s.reg .pc) = .ok op.toWord) (hpos : 1 ≤ k) (hcount : k ≤ op.operandCount)
    (hend : s.program.length = (s.reg .pc).toNat + k) :
    s.firstFault = some (.programAddressOutOfRange (s.reg .pc + BitVec.ofNat 64 k)) := by
  have hword := State.wordAfterPc_zero_of_fetch hop
  have hknown : ¬ 9 ≤ op.toWord.toNat := Nat.not_le.mpr op.toWord_toNat_lt
  obtain rfl | rfl : k = 1 ∨ k = 2 := by have := op.operandCount_le_two; omega
  · have hfirst := op.one_le_operandCount_iff.mp hcount
    simp [State.firstFault, State.faultCandidates, hword, hend, hknown, hfirst]
  · have hsecond := op.two_le_operandCount_iff.mp hcount
    simp [State.firstFault, State.faultCandidates, hword, hend, hknown, hsecond]

/-- With every word of the instruction inside the program, the four conditions of fetch and decode at the head of R166's
list do not hold. -/
theorem State.firstFault_of_operands_present {s : State} {op : Opcode} (hop : s.fetch (s.reg .pc) = .ok op.toWord)
    (hend : (s.reg .pc).toNat + op.operandCount < s.program.length) :
    s.firstFault = ((s.faultCandidates.drop 4).find? Prod.fst).map Prod.snd := by
  have hword := State.wordAfterPc_zero_of_fetch hop
  have hpc : ¬ s.program.length ≤ (s.reg .pc).toNat := by omega
  have hknown : ¬ 9 ≤ op.toWord.toNat := Nat.not_le.mpr op.toWord_toNat_lt
  have hfirst : ¬ (1 ≤ op.toWord.toNat ∧ op.toWord.toNat ≤ 7 ∧ s.program.length ≤ (s.reg .pc).toNat + 1) := by
    rw [← and_assoc, ← op.one_le_operandCount_iff]
    omega
  have hsecond : ¬ (1 ≤ op.toWord.toNat ∧ op.toWord.toNat ≤ 5 ∧ s.program.length ≤ (s.reg .pc).toNat + 2) := by
    rw [← and_assoc, ← op.two_le_operandCount_iff]
    omega
  simp only [State.firstFault, State.faultCandidates, hword, hpc, hknown, hfirst, hsecond, decide_false,
    List.find?_cons, List.drop_succ_cons, List.drop_zero]

theorem firstCandidate_cons (c : Bool) (f : Fault) (rest : List (Bool × Fault)) :
    (((c, f) :: rest).find? Prod.fst).map Prod.snd = if c then some f else (rest.find? Prod.fst).map Prod.snd := by
  cases c <;> rfl

theorem firstBadRegIndexFault_cons (o : Word) (os : List Word) :
    ((o :: os).find? badRegIndex).map Fault.registerIndexOutOfRange =
      if 8 ≤ o.toNat then some (.registerIndexOutOfRange o)
      else (os.find? badRegIndex).map Fault.registerIndexOutOfRange := by
  by_cases h : 8 ≤ o.toNat <;> simp [h]

/-- Once an instruction is decoded, what R166's list reports is the fault of execute: the two operands of the opcodes that
name registers stand at offsets 1 and 2 (R165). -/
theorem State.firstFault_of_decoded {s : State} {i : Instr} (hfit : s.programFits) (hi : s.fetchDecode = .ok i) :
    s.firstFault = executeFault i := by
  have hfetch := State.fetch_pc_of_fetchDecode hi
  have hend : (s.reg .pc).toNat + i.opcode.operandCount < s.program.length := by
    have := State.pc_add_size_le hfit hi
    rw [Instr.size] at this
    omega
  have hword := State.wordAfterPc_zero_of_fetch hfetch
  rw [State.firstFault_of_operands_present hfetch hend]
  cases i with
  | halt | jumpEq | jumpNotEq | debugRegs =>
    simp [State.faultCandidates, executeFault, Instr.firstBadOperand, Instr.regOperands, hword, Instr.opcode,
      Opcode.toWord]
  | setRegImm o1 o2 | setRegReg o1 o2 | addRegReg o1 o2 | addRegImm o1 o2 | cmpRegImm o1 o2 =>
    have h1 : s.wordAfterPc 1 = o1.toNat := State.wordAfterPc_of_encode hfit hi rfl
    have h2 : s.wordAfterPc 2 = o2.toNat := State.wordAfterPc_of_encode hfit hi rfl
    simp [State.faultCandidates, executeFault, Instr.firstBadOperand, Instr.regOperands, hword, Instr.opcode,
      Opcode.toWord, h1, h2, firstCandidate_cons, firstBadRegIndexFault_cons]

theorem State.expectedStatus_of_firstFault {s : State} {f : Fault} (h : s.firstFault = some f) :
    s.expectedStatus = .faulted f := by
  simp [State.expectedStatus, h]

/-- Without a fault, Halt alone ends the run (R97). -/
theorem State.expectedStatus_of_no_fault {s : State} {i : Instr} (hi : s.fetchDecode = .ok i)
    (h : s.firstFault = none) : s.expectedStatus = if i = .halt then .halted else .running := by
  simp [State.expectedStatus, h, State.wordAfterPc_zero_of_fetch (State.fetch_pc_of_fetchDecode hi),
    Instr.opcode_toWord_eq_zero_iff]

/-- A fault of fetch or decode is the first of R166's list. -/
theorem State.firstFault_of_fetchDecode_error {s : State} {f : Fault} (hfit : s.programFits)
    (hf : s.fetchDecode = .error f) : s.firstFault = some f := by
  rcases State.fetchDecode_cases hfit with ⟨hend, h⟩ | ⟨w, hfetch, hw, h⟩ | ⟨op, k, hop, hpos, hcount, hend, h⟩ | ⟨i, h⟩
  · cases h.symm.trans hf
    exact State.firstFault_of_pc_past_end hend
  · cases h.symm.trans hf
    exact State.firstFault_of_unknown hfetch hw
  · cases h.symm.trans hf
    exact State.firstFault_of_missing_operand hop hpos hcount hend
  · cases h.symm.trans hf

/-- Settles O21: the cycle ends in the fault of fetch and decode, in that of execute, or in none. -/
theorem firstFaultInPriorityOrder : Obligations.FirstFaultInPriorityOrder := by
  intro s hr hfit
  cases hdec : s.fetchDecode with
  | error f =>
    have hfirst := State.firstFault_of_fetchDecode_error hfit hdec
    exact ⟨_, step_of_error hr hdec, (State.expectedStatus_of_firstFault hfirst).symm⟩
  | ok i =>
    have hstep := step_of_ok hr hdec
    have hfirst := State.firstFault_of_decoded hfit hdec
    cases hf : executeFault i with
    | some f =>
      exact ⟨_, hstep.trans (exec_of_executeFault hf _),
        (State.expectedStatus_of_firstFault (hfirst.trans hf)).symm⟩
    | none =>
      obtain ⟨t, hexec, hstatus⟩ := exec_of_executeFault_none hf (s.advancePc i)
      rw [State.advancePc_status, hr] at hstatus
      exact ⟨t, hstep.trans hexec, hstatus.trans (State.expectedStatus_of_no_fault hdec (hfirst.trans hf)).symm⟩

end Sys2Proof.Machine
end

section
/-! Reset and hazards (spec 70_reset_and_hazards.md): the host's start of a run (R192), reads of pc after its advance
(R196), the JumpNotEq that falls through (R199), and that no step writes the program (R200). -/

namespace Sys2Proof.Machine

/-- What the host's start of a run needs and what it leaves: the program and the status alone change (R173, R192). -/
theorem State.startRun_eq_some_iff {s t : State} {p : List Word} :
    s.startRun p = some t ↔
      s.status ≠ .running ∧ p.length ≤ Config.maxProgramLength ∧ t = { s with program := p, status := .running } := by
  unfold State.startRun
  split
  case isTrue hturned =>
    refine iff_of_false (Option.some_ne_none t).symm fun ⟨hs, hp, _⟩ => ?_
    exact hturned.elim hs (Nat.not_lt.mpr hp)
  case isFalse hfree =>
    obtain ⟨hs, hp⟩ := not_or.mp hfree
    simp [hs, Nat.not_lt.mp hp, eq_comm]

/-- Settles O49: the stack and the dumps are kept, the program fits, and a running core holds no fault and no halt. -/
theorem startRunKeepsTheInvariant : Obligations.StartRunKeepsTheInvariant := by
  intro s t p hs ht
  obtain ⟨_, hfit, rfl⟩ := State.startRun_eq_some_iff.mp ht
  exact {
    stackCanonical := hs.stackCanonical
    stackZero := hs.stackZero
    programFits := hfit
    faultSound := fun f hf => by cases hf
    haltSound := fun hh => by cases hh
    dumpsAdvanced := hs.dumpsAdvanced }

/-- Settles O2, from what the host's move needs and leaves; the pc a reset core starts with is that of reset. -/
theorem runStartsFromTheHeldState : Obligations.RunStartsFromTheHeldState := by
  refine ⟨fun s p hs hp => ?held, fun p t ht => ?fromReset⟩
  case held =>
    exact ⟨_, State.startRun_eq_some_iff.mpr ⟨hs, hp, rfl⟩, rfl, rfl, fun _ => rfl, fun _ => rfl, rfl⟩
  case fromReset =>
    obtain ⟨_, _, rfl⟩ := State.startRun_eq_some_iff.mp ht
    exact State.reset_reg .pc

/-- AddRegReg reads both its registers after the PC advance (R121). -/
theorem step_addRegReg {s : State} {a b : Reg} (hr : s.status = .running)
    (hi : s.fetchDecode = .ok (.addRegReg a.index b.index)) :
    ∃ t, step s = .next t ∧ t.reg .ac =
      (s.advancePc (.addRegReg a.index b.index)).reg a + (s.advancePc (.addRegReg a.index b.index)).reg b :=
  ⟨_, (step_of_ok hr hi).trans (exec_addRegReg_index a b _), State.reg_setReg_same _ .ac _⟩

/-- AddRegImm reads its register after the PC advance (R122). -/
theorem step_addRegImm {s : State} {a : Reg} {imm : Word} (hr : s.status = .running)
    (hi : s.fetchDecode = .ok (.addRegImm a.index imm)) :
    ∃ t, step s = .next t ∧ t.reg .ac = (s.advancePc (.addRegImm a.index imm)).reg a + imm :=
  ⟨_, (step_of_ok hr hi).trans (exec_addRegImm_index a imm _), State.reg_setReg_same _ .ac _⟩

/-- CmpRegImm reads its register after the PC advance (R131). -/
theorem step_cmpRegImm {s : State} {r : Reg} {imm : Word} (hr : s.status = .running)
    (hi : s.fetchDecode = .ok (.cmpRegImm r.index imm)) :
    ∃ t, step s = .next t ∧ t.reg .ac = compare3 ((s.advancePc (.cmpRegImm r.index imm)).reg r) imm :=
  ⟨_, (step_of_ok hr hi).trans (exec_cmpRegImm_index r imm _), State.reg_setReg_same _ .ac _⟩

/-- Settles O24: the index word 0 names pc, which is read advanced by three words; any other register is read as the
cycle found it. -/
theorem readOfPcSeesTheAdvancedPc : Obligations.ReadOfPcSeesTheAdvancedPc := by
  intro s hr
  refine ⟨fun r => step_setRegReg (r := .pc) hr, step_addRegReg (a := .pc) (b := .pc) hr,
    fun r hpc hi => ?pcFirst, fun r hpc hi => ?pcSecond,
    fun imm => step_addRegImm (a := .pc) hr, fun imm => step_cmpRegImm (r := .pc) hr⟩
  case pcFirst =>
    rw [← State.advancePc_reg s (.addRegReg Reg.pc.index r.index) hpc]
    exact step_addRegReg (a := .pc) hr hi
  case pcSecond =>
    rw [← State.advancePc_reg s (.addRegReg r.index Reg.pc.index) hpc]
    exact step_addRegReg (b := .pc) hr hi

/-- Settles O38: with ac not 1 the jump is taken and pc ends at its target; with ac 1 the cycle only advances pc. -/
theorem fallThroughLeavesAcOne : Obligations.FallThroughLeavesAcOne := by
  intro s t addr hr hi ht htarget hpc
  have hac : s.reg .ac = 1 := by
    by_contra hne
    have htaken : t.reg .pc = addr := (nextPcFollowsTheTable s t hr ht).trans (State.nextPc_jumpNotEq_taken hi hne)
    exact htarget (htaken.symm.trans hpc)
  have hadvanced : (s.advancePc (.jumpNotEq addr)).reg .ac = 1 := (State.advancePc_reg s _ (by decide)).trans hac
  obtain rfl := Host.Outcome.next.inj
    (((step_of_ok hr hi).trans (exec_jumpNotEq_notTaken addr hadvanced)).symm.trans ht)
  exact hadvanced

/-- Settles O44, from the cases of a step. -/
theorem noStepWritesTheProgram : Obligations.NoStepWritesTheProgram :=
  fun _ _ ht => step_program ht

end Sys2Proof.Machine
end
